-- ==== Sys2Proof/Word.lean ====
section
/-! DEFINITION. The word types of the block: bytes, byte sequences, the command word, the counter. -/

namespace Sys2Proof

/-- `Byte = bits(8)` (00_scope.md section 5.2). -/
abbrev Byte := BitVec 8

/-- A finite sequence of bytes, index 0 first (00_scope.md section 5.2). -/
abbrev Bytes := List Byte

/-- The 32-bit command word of a `CMD32` command (30_encoding.md R45). -/
abbrev CmdWord := BitVec 32

/-- The value of the frame counter: CTR_WIDTH = 8 bits, so it counts modulo 256
(00_scope.md R5, 10_state.md R12). -/
abbrev Count := BitVec 8

end Sys2Proof
end

