-- ==== Sys2Proof/Config.lean ====
section
/-! DEFINITION. The configuration constants of the block (00_scope.md R1 to R6) and the two things
the spec leaves open: the build parameter SEG_HDR_ENABLED and the bytes of a failed encode. -/

namespace Sys2Proof.Config

/-- MAX_PAYLOAD, the largest payload of a TC or TM frame (00_scope.md R1). -/
def maxPayload : Nat := 1024

/-- TC_PH_LEN, the length of the TC primary header (00_scope.md R2). -/
def tcPhLen : Nat := 5

/-- SEG_HDR_LEN, the length of the TC segment header (00_scope.md R2). -/
def segHdrLen : Nat := 1

/-- TM_PH_LEN, the length of the TM primary header (00_scope.md R2). -/
def tmPhLen : Nat := 6

/-- FECF_LEN, the length of the frame error control field (00_scope.md R2). -/
def fecfLen : Nat := 2

/-- CRC_POLY (00_scope.md R4). -/
def crcPoly : BitVec 16 := 0x1021#16

/-- CRC_INIT (00_scope.md R4). -/
def crcInit : BitVec 16 := 0xFFFF#16

/-- CRC_REFIN: input bytes are not reflected (00_scope.md R4). -/
def crcRefIn : Bool := false

/-- CRC_REFOUT: the result is not reflected (00_scope.md R4). -/
def crcRefOut : Bool := false

/-- CRC_XOROUT: no final XOR (00_scope.md R4). -/
def crcXorOut : BitVec 16 := 0x0000#16

/-- CTR_RESET, the counter's reset value (00_scope.md R6, 10_state.md R12). -/
def ctrReset : Count := 0x00#8

/-- The version that TC_CREATE writes (00_scope.md R6, 42_tc_codec.md R101). -/
def tcVersion : BitVec 2 := 0b00#2

/-- The version that TM_CREATE writes (00_scope.md R6, 43_tm_codec.md R141). -/
def tmVersion : BitVec 2 := 0b00#2

/-- The segment-length identifier that TM_CREATE writes, "no segmentation"
(00_scope.md R6, 43_tm_codec.md R141). -/
def tmSegLenId : BitVec 2 := 0b11#2

/-- SEG_HDR_ENABLED of the block that was built. The spec leaves it OPEN (00_scope.md R3, D2), so it
has no body and no proof can see its value. Only `State.reset` reads it. DESIGN CHOICE, log entry 2:
safe, since nothing can rest on either value. -/
opaque segHdrBuilt : Bool

/-- FREE VALUE: byte `i` of the `k`-th destination buffer that a failed encode leaves behind, the
spec's `draw Bytes(n)` (20_memory.md R35). It has no body: "A model must not give these bytes a
value". DESIGN CHOICE for its form, log entry 3. -/
opaque freeByte (k i : Nat) : Byte

end Sys2Proof.Config
end

