-- ==== Sys2Proof/Syntax.lean ====
section
/-! DEFINITION. The syntax of SDLP-CMD version 1: the ten commands, the two frame records, the operand
records and the command the host issues. -/

namespace Sys2Proof

/-- The commands, one constructor per row of spec/opcode_table.json (30_encoding.md R46). Only
TC_DECODE has a field in its command word, the flag E (30_encoding.md R47). -/
inductive Instr where
  | crc16
  | tcCreate
  | tcSetSeg
  | tcEncode
  /-- `e`: a segment header is expected. -/
  | tcDecode (e : Bool)
  | tmCreate
  | tmEncode
  | tmDecode
  | cntRead
  | cntWrite
  deriving DecidableEq, Repr

/-- A TC frame record (10_state.md R14). The segment-header fields are kept in both builds; without
the feature they hold 0 and nothing reads them (D33). -/
structure TcFrame where
  version     : BitVec 2
  bypass      : BitVec 1
  cc          : BitVec 1
  reserved    : BitVec 2
  scid        : BitVec 10
  vcid        : BitVec 6
  frameLength : BitVec 10
  seq         : BitVec 8
  segFlags    : BitVec 2
  mapId       : BitVec 6
  payload     : Bytes
  fecf        : BitVec 16
  deriving DecidableEq, Repr

/-- A TM frame record (10_state.md R16; `dfStatus` is one bit, 90_conflicts.md C2). -/
structure TmFrame where
  version  : BitVec 2
  scid     : BitVec 10
  vcid     : BitVec 3
  ocf      : BitVec 1
  mcfc     : BitVec 8
  vcfc     : BitVec 8
  dfStatus : BitVec 1
  sync     : BitVec 1
  pktOrder : BitVec 1
  segLenId : BitVec 2
  fhp      : BitVec 11
  payload  : Bytes
  fecf     : BitVec 16
  deriving DecidableEq, Repr

/-- The four named values of the segment header's sequence flags (30_encoding.md R54). -/
inductive SeqFlags where
  | continuing
  | first
  | last
  | noSegmentation
  deriving DecidableEq, Repr

/-- The operand records of 10_state.md R20, one constructor per shape. A reference operand is an
`Option`, an output slot a `Bool` (R22). TC_DECODE and TM_DECODE take records of the same shape. -/
inductive Operands where
  | crc16 (data : Bytes)
  | tcCreate (scid : BitVec 16) (vcid seq : BitVec 8) (payload : Option Bytes) (fout : Bool)
  | tcSetSeg (frame : Option TcFrame) (flags : BitVec 2) (map : BitVec 8)
  | tcEncode (frame : Option TcFrame) (dst : Option Bytes) (lout : Bool)
  | decode (src : Option Bytes) (fout : Bool)
  | tmCreate (scid : BitVec 16) (vcid : BitVec 8) (payload : Option Bytes) (fout : Bool)
  | tmEncode (frame : Option TmFrame) (dst : Option Bytes) (lout : Bool)
  | cntRead
  | cntWrite (value : BitVec 8)
  deriving DecidableEq, Repr

/-- What the host issues: the pair `(word, ops)` of 10_state.md R19. -/
structure Command where
  word : CmdWord
  ops  : Operands
  deriving DecidableEq, Repr

end Sys2Proof
end

