-- ==== Sys2Proof/WellFormed.lean ====
section
/-! DEFINITION. When a frame record, an operand record and a command are well-formed
(10_state.md R15, R17, R20; 30_encoding.md R47, R50). Each check is a Bool. -/

namespace Sys2Proof

/-- A TC frame record's payload fits MAX_PAYLOAD (10_state.md R15). The other fields fit by type. -/
def TcFrame.wf (f : TcFrame) : Bool := decide (f.payload.length ≤ Config.maxPayload)

/-- A TM frame record's payload fits MAX_PAYLOAD (10_state.md R17). -/
def TmFrame.wf (f : TmFrame) : Bool := decide (f.payload.length ≤ Config.maxPayload)

/-- The segment-header fields hold 0, as they do in a block built without the feature
(10_state.md R14). -/
def TcFrame.noSegHdr (f : TcFrame) : Bool := f.segFlags == 0#2 && f.mapId == 0#6

/-- Every frame record among the operands is well-formed (10_state.md R15, R17). -/
def Operands.wf : Operands → Bool
  | .tcSetSeg frame _ _ => frame.all TcFrame.wf
  | .tcEncode frame _ _ => frame.all TcFrame.wf
  | .tmEncode frame _ _ => frame.all TmFrame.wf
  | .crc16 _ => true
  | .tcCreate _ _ _ _ _ => true
  | .decode _ _ => true
  | .tmCreate _ _ _ _ => true
  | .cntRead => true
  | .cntWrite _ => true

/-- The operand record has the shape that 10_state.md R20 gives the command. -/
def Instr.fits : Instr → Operands → Bool
  | .crc16, .crc16 _ => true
  | .tcCreate, .tcCreate _ _ _ _ _ => true
  | .tcSetSeg, .tcSetSeg _ _ _ => true
  | .tcEncode, .tcEncode _ _ _ => true
  | .tcDecode _, .decode _ _ => true
  | .tmCreate, .tmCreate _ _ _ _ => true
  | .tmEncode, .tmEncode _ _ _ => true
  | .tmDecode, .decode _ _ => true
  | .cntRead, .cntRead => true
  | .cntWrite, .cntWrite _ => true
  | _, _ => false

/-- The command exists in a block whose SEG_HDR_ENABLED is `seg` (30_encoding.md R47, R50). -/
def Instr.presentIn (seg : Bool) : Instr → Bool
  | .tcSetSeg => seg
  | .tcDecode e => !e || seg
  | .crc16 => true
  | .tcCreate => true
  | .tcEncode => true
  | .tmCreate => true
  | .tmEncode => true
  | .tmDecode => true
  | .cntRead => true
  | .cntWrite => true

/-- The command with this operand record has a meaning (60_exceptions.md R190, the cases below the
command word). -/
def Instr.wf (seg : Bool) (i : Instr) (ops : Operands) : Bool :=
  i.presentIn seg && i.fits ops && ops.wf

end Sys2Proof
end

