-- ==== Sys2Proof/Decode.lean ====
section
/-! DEFINITION. The command word: its fields, the decoder (total on every word, rejecting by name),
the encoder, and the names of 30_encoding.md R52 and R54. -/

namespace Sys2Proof

/-- Why a command word is rejected. -/
inductive DecodeError where
  /-- A bit of RES = word[31:9] is set (30_encoding.md R48). -/
  | reservedBits
  /-- OPC is none of the ten of R46 (30_encoding.md R49). -/
  | reservedOpcode
  /-- E = 1 in a command other than TC_DECODE (30_encoding.md R47). -/
  | strayE
  deriving DecidableEq, Repr

/-- OPC, word[7:0] (30_encoding.md R45). -/
def opcOf (w : CmdWord) : BitVec 8 := w.extractLsb' 0 8

/-- E, word[8] (30_encoding.md R45). -/
def eOf (w : CmdWord) : Bool := w.getLsbD 8

/-- RES, word[31:9] (30_encoding.md R45). -/
def resOf (w : CmdWord) : BitVec 23 := w.extractLsb' 9 23

/-- A command without the flag E: E = 1 is rejected (30_encoding.md R47). -/
def plainCommand (e : Bool) (i : Instr) : Except DecodeError Instr :=
  if e then .error .strayE else .ok i

/-- The opcode map (30_encoding.md R46). It is the same for both builds: whether TC_SET_SEG and E = 1
are present is checked when the command runs. -/
def decodeOpc (opc : BitVec 8) (e : Bool) : Except DecodeError Instr :=
  if opc = 0x01#8 then plainCommand e .crc16
  else if opc = 0x10#8 then plainCommand e .tcCreate
  else if opc = 0x11#8 then plainCommand e .tcSetSeg
  else if opc = 0x12#8 then plainCommand e .tcEncode
  else if opc = 0x13#8 then .ok (.tcDecode e)
  else if opc = 0x20#8 then plainCommand e .tmCreate
  else if opc = 0x21#8 then plainCommand e .tmEncode
  else if opc = 0x22#8 then plainCommand e .tmDecode
  else if opc = 0x30#8 then plainCommand e .cntRead
  else if opc = 0x31#8 then plainCommand e .cntWrite
  else .error .reservedOpcode

/-- The decoder (30_encoding.md R45 to R49). -/
def decode (w : CmdWord) : Except DecodeError Instr :=
  if resOf w = 0#23 then decodeOpc (opcOf w) (eOf w) else .error .reservedBits

/-- The opcode of a command (30_encoding.md R46). -/
def Instr.opc : Instr → BitVec 8
  | .crc16 => 0x01#8
  | .tcCreate => 0x10#8
  | .tcSetSeg => 0x11#8
  | .tcEncode => 0x12#8
  | .tcDecode _ => 0x13#8
  | .tmCreate => 0x20#8
  | .tmEncode => 0x21#8
  | .tmDecode => 0x22#8
  | .cntRead => 0x30#8
  | .cntWrite => 0x31#8

/-- The flag E of a command (30_encoding.md R47). -/
def Instr.eBit : Instr → BitVec 1
  | .tcDecode e => BitVec.ofBool e
  | .crc16 => 0#1
  | .tcCreate => 0#1
  | .tcSetSeg => 0#1
  | .tcEncode => 0#1
  | .tmCreate => 0#1
  | .tmEncode => 0#1
  | .tmDecode => 0#1
  | .cntRead => 0#1
  | .cntWrite => 0#1

/-- The encoder: RES ++ E ++ OPC (30_encoding.md R45). -/
def Instr.encode (i : Instr) : CmdWord := 0#23 ++ i.eBit ++ i.opc

/-- A command word of the opcode table, given as a number. A command has one 32-bit word and no
byte order (30_encoding.md R45, 20_memory.md R40), so the number is the word; a longer one is no
command. -/
def decodeTableWord (nbits w : Nat) : Option Instr :=
  if nbits ≤ 32 then (decode (BitVec.ofNat 32 (w % 2 ^ nbits))).toOption else none

/-- The assembler's name of a command (30_encoding.md R52). -/
def Instr.asmName : Instr → String
  | .crc16 => "crc16"
  | .tcCreate => "tc.create"
  | .tcSetSeg => "tc.setseg"
  | .tcEncode => "tc.encode"
  | .tcDecode false => "tc.decode"
  | .tcDecode true => "tc.decode.seg"
  | .tmCreate => "tm.create"
  | .tmEncode => "tm.encode"
  | .tmDecode => "tm.decode"
  | .cntRead => "cnt.read"
  | .cntWrite => "cnt.write"

/-- The commands under every assembler name, TC_DECODE under its two (30_encoding.md R52, R53). -/
def allCommands : List Instr :=
  [.crc16, .tcCreate, .tcSetSeg, .tcEncode, .tcDecode false, .tcDecode true,
   .tmCreate, .tmEncode, .tmDecode, .cntRead, .cntWrite]

/-- The command an assembler mnemonic stands for; there are no pseudo-instructions
(30_encoding.md R52, R53). -/
def assemble (name : String) : Option Instr := allCommands.find? (fun i => i.asmName == name)

/-- The numbers of the sequence flags (30_encoding.md R54). -/
def SeqFlags.code : SeqFlags → BitVec 2
  | .continuing => 0b00#2
  | .first => 0b01#2
  | .last => 0b10#2
  | .noSegmentation => 0b11#2

/-- The name of a value of the sequence flags; no value is reserved (30_encoding.md R54). -/
def SeqFlags.ofCode (v : BitVec 2) : SeqFlags :=
  if v = 0b00#2 then .continuing
  else if v = 0b01#2 then .first
  else if v = 0b10#2 then .last
  else .noSegmentation

end Sys2Proof
end

