-- ==== Sys2Proof/Machine/State.lean ====
section
/-! DEFINITION. Statuses, result records, the state of the block and its host interface, the reasons
a step can stop, and the state after reset. -/

namespace Sys2Proof.Machine

/-- The four ways a command can fail (60_exceptions.md R180). A failure is a result, not a stop. -/
inductive Failure where
  | invalidParameter
  | bufferTooSmall
  | invalidFrame
  | crcMismatch
  deriving DecidableEq, Repr

/-- The status of a completed command (60_exceptions.md R180). -/
inductive Status where
  | success
  | failed (why : Failure)
  deriving DecidableEq, Repr

/-- The results a command delivers on Success (10_state.md R21). -/
inductive Results where
  | none
  | crc (crc : BitVec 16)
  | tcFrame (frame : TcFrame)
  | tmFrame (frame : TmFrame)
  | encoded (dst : Bytes) (len : Nat)
  | value (value : BitVec 8)
  deriving DecidableEq, Repr

/-- A result record (10_state.md R21). On a failure there is no result but, when the command had a
present DST operand, the sequence DST'. -/
inductive ResultRecord where
  | success (results : Results)
  | failure (why : Failure) (dst : Option Bytes)
  deriving DecidableEq, Repr

/-- The block, the host's side of its command interface, and the model's own draw counter. -/
structure State where
  /-- CTR, the TM master-channel frame counter: the block's one register (10_state.md R12, R26). -/
  ctr : Count
  /-- SEG_HDR_ENABLED, the build parameter. It stands here because a step takes no other argument;
  no command writes it (00_scope.md R3, 10_state.md R13). -/
  segHdr : Bool
  /-- The commands the host has issued and the block has not yet executed, next first
  (10_state.md R11, R19; 20_memory.md R38). -/
  pending : List Command
  /-- The result records the host has received, latest first (10_state.md R21, R24). The block never
  reads them (10_state.md R18, R23). -/
  delivered : List ResultRecord
  /-- THE MODEL'S OWN: how many buffers have been drawn for failed encodes (20_memory.md R35). -/
  draws : Nat
  deriving DecidableEq, Repr

/-- The block has no traps and no fault states: a failure is the status of its command
(60_exceptions.md R188, R189; 93_implementation_defined.md section 1). No step ends in a fault. -/
inductive Fault where
  deriving DecidableEq, Repr

/-- The refusals of 60_exceptions.md R190: the command has no meaning, has no status and changes
nothing. Each is safe: no claim can rest on what a refused command does. -/
inductive Refusal where
  /-- Raised by exec for a command that has no meaning yet; no arm of this model raises it. Safe. -/
  | notModelled (mnemonic : String)
  /-- Raised by step: the decoder rejects the command word (R47, R48, R49). Safe. -/
  | illegalWord (why : DecodeError)
  /-- Raised by TC_SET_SEG, and by TC_DECODE with E = 1, in a block whose SEG_HDR_ENABLED is false
  (R47, R50). Safe. -/
  | segHdrNotPresent
  /-- Raised by the commands that take a frame record: its payload is longer than 1024 bytes
  (10_state.md R15, R17). Safe. -/
  | payloadTooLong
  /-- Raised by every command: its operand record has not the shape of 10_state.md R20. Safe. -/
  | operandShape
  deriving DecidableEq, Repr

/-- The outcome of a step of the block. -/
abbrev Outcome := Host.Outcome State Fault Refusal

/-- The state after reset (70_reset_and_hazards.md R200, R201): CTR is 0x00, SEG_HDR_ENABLED has its
build-time value, and no command is issued and no result delivered. The draw counter's 0 is a
DESIGN CHOICE (log entry 3). -/
def State.reset : State where
  ctr := Config.ctrReset
  segHdr := Config.segHdrBuilt
  pending := []
  delivered := []
  draws := 0

end Sys2Proof.Machine
end

