-- ==== Sys2Proof/Machine/Flags.lean ====
section
/-! DEFINITION. The block keeps no flags (10_state.md R23). What takes their place is the status of a
result record, its number, and what of a record the host may read. -/

namespace Sys2Proof.Machine

/-- The numbers of the failures (60_exceptions.md R180). -/
def Failure.code : Failure → Nat
  | .invalidParameter => 1
  | .bufferTooSmall => 2
  | .invalidFrame => 3
  | .crcMismatch => 4

/-- The numbers of the statuses (60_exceptions.md R180). -/
def Status.code : Status → Nat
  | .success => 0
  | .failed why => why.code

/-- The status of a result record (10_state.md R21). -/
def ResultRecord.status : ResultRecord → Status
  | .success _ => .success
  | .failure why _ => .failed why

/-- What the host may read of a result record: the contents of DST' after a failure are unspecified
(20_memory.md R35, 70_reset_and_hazards.md R203), so only its length is left. -/
def ResultRecord.readable : ResultRecord → ResultRecord
  | .success r => .success r
  | .failure why dst => .failure why (dst.map fun d => List.replicate d.length 0#8)

end Sys2Proof.Machine
end

