-- ==== Sys2Proof/Machine/Ops.lean ====
section
/-! DEFINITION. The named operations the commands share: byte sequences, masks and lengths
(20_memory.md, 41_primitives.md), the CRC engine (40_crc.md), the fetch of a command, and the ways a
command completes. The block has no traps: completing with a failure status (60_exceptions.md R186,
R188) takes the place of taking an exception, and the next issued command that of a return. -/

namespace Sys2Proof.Machine

/-! ### Byte sequences -/

/-- `B[i]`. Every use stands behind a length check (20_memory.md R32), so the 0 past the end is
never used. -/
def byteAt (b : Bytes) (i : Nat) : Byte := b.getD i 0#8

/-- `MemRead(B, i, n) = B[i..i+n)` (20_memory.md R32). -/
def memRead (b : Bytes) (i n : Nat) : Bytes := (b.drop i).take n

/-- `MemWrite(D, i, S)`: bytes `D[i..i+|S|)` become S and the others stay (20_memory.md R33). -/
def memWrite (d : Bytes) (i : Nat) (s : Bytes) : Bytes :=
  d.take i ++ s ++ d.drop (i + s.length)

/-- `be16`, high byte first (20_memory.md R31, 41_primitives.md R96). -/
def be16 (v : BitVec 16) : Bytes := [v.extractLsb' 8 8, v.extractLsb' 0 8]

/-- `join16`, the inverse of `be16` (41_primitives.md R96). -/
def join16 (b0 b1 : Byte) : BitVec 16 := b0 ++ b1

/-- `draw Bytes(n)` (00_scope.md section 5.3): the free bytes of draw number `k`. -/
def drawBytes (k n : Nat) : Bytes := (List.range n).map (Config.freeByte k)

/-! ### Masks and lengths -/

/-- `mask_N(v) = trunc_N(v)` (41_primitives.md R90). -/
def mask (n : Nat) {m : Nat} (v : BitVec m) : BitVec n := v.truncate n

/-- `tc_seg_present(cc)` as a number (41_primitives.md R97). -/
def tcSegPresent (seg : Bool) (cc : BitVec 1) : Nat := if seg = true ∧ cc = 0#1 then 1 else 0

/-- `tc_total_len(p, s)` (41_primitives.md R91). -/
def tcTotalLen (p s : Nat) : Nat := Config.tcPhLen + s + p + Config.fecfLen

/-- `tm_total_len(p)` (41_primitives.md R92). -/
def tmTotalLen (p : Nat) : Nat := Config.tmPhLen + p + Config.fecfLen

/-- `tc_fl_field(p, s) = trunc_10(tc_total_len(p, s) − 1)` (41_primitives.md R93, R94). -/
def tcFlField (p s : Nat) : BitVec 10 := BitVec.ofNat 10 (tcTotalLen p s - 1)

/-- `tc_rx_payload_len(L, s)`, an integer that may be negative (41_primitives.md R95). -/
def tcRxPayloadLen (l s : Nat) : Int := (l : Int) - Config.tcPhLen - s - Config.fecfLen

/-- `tm_rx_payload_len(L)`, an integer that may be negative (41_primitives.md R95). -/
def tmRxPayloadLen (l : Nat) : Int := (l : Int) - Config.tmPhLen - Config.fecfLen

/-! ### The CRC engine -/

/-- One shift of the CRC register (40_crc.md R80). -/
def crcShift (c : BitVec 16) : BitVec 16 :=
  if c.getLsbD 15 then (c <<< 1) ^^^ Config.crcPoly else c <<< 1

/-- `k` shifts of the CRC register (40_crc.md R80). -/
def crcShifts : Nat → BitVec 16 → BitVec 16
  | 0, c => c
  | k + 1, c => crcShifts k (crcShift c)

/-- The byte as the engine takes it in (00_scope.md R4, CRC_REFIN). -/
def crcInByte (b : Byte) : Byte := if Config.crcRefIn then b.reverse else b

/-- One byte through the CRC register: into its high half, then eight shifts (40_crc.md R80). -/
def crcByte (c : BitVec 16) (b : Byte) : BitVec 16 :=
  crcShifts 8 (c ^^^ (crcInByte b ++ 0#8))

/-- What the engine makes of the register at the end (00_scope.md R4, CRC_REFOUT, CRC_XOROUT). -/
def crcOut (c : BitVec 16) : BitVec 16 :=
  (if Config.crcRefOut then c.reverse else c) ^^^ Config.crcXorOut

/-- `crc16(D)` (40_crc.md R80), the one function of both codecs (R85). -/
def crc16 (d : Bytes) : BitVec 16 := crcOut (d.foldl crcByte Config.crcInit)

/-- The FECF a received frame declares, its last two bytes (42_tc_codec.md R134,
43_tm_codec.md R163). -/
def declaredFecf (b : Bytes) : BitVec 16 :=
  join16 (byteAt b (b.length - 2)) (byteAt b (b.length - 1))

/-- The CRC recomputed over every byte before the FECF (20_memory.md R43). -/
def receivedCrc (b : Bytes) : BitVec 16 := crc16 (memRead b 0 (b.length - Config.fecfLen))

/-! ### Fetching a command, and completing it -/

/-- The word of the command the block executes next: the first the host has issued
(10_state.md R11, R24). -/
def fetch (s : State) : Option CmdWord := s.pending.head?.map Command.word

/-- The block waits when the host has issued no command (70_reset_and_hazards.md R201). DESIGN
CHOICE, log entry 4: such a step leaves the state as it is. -/
def idle (s : State) : State := s

/-- The command completes: its result record goes to the host and the next command may start
(10_state.md R11, R21, R24). -/
def State.deliver (s : State) (r : ResultRecord) : State :=
  { s with pending := s.pending.tail, delivered := r :: s.delivered }

/-- The command completes with Success (`return Success(results)`). -/
def State.succeed (s : State) (r : Results) : State := s.deliver (.success r)

/-- The command completes with a failure status (`raise Status(code)`): CTR stays, no result is
delivered, nothing records the failure (60_exceptions.md R186). -/
def State.fail (s : State) (why : Failure) : State := s.deliver (.failure why none)

/-- A command without a DST operand completes with what it computed. -/
def State.conclude (s : State) : Except Failure Results → State
  | .ok r => s.succeed r
  | .error why => s.fail why

/-- An encode command completes. On a failure with DST present, DST' is a free draw of its length
(20_memory.md R35, 60_exceptions.md R186). -/
def State.concludeEncode (s : State) (dst : Option Bytes) : Except Failure (Bytes × Nat) → State
  | .ok (d, n) => s.succeed (.encoded d n)
  | .error why =>
    match dst with
    | none => s.fail why
    | some d =>
      { s with draws := s.draws + 1 }.deliver (.failure why (some (drawBytes s.draws d.length)))

end Sys2Proof.Machine
end

