-- ==== Sys2Proof/Machine/Operands.lean ====
section
/-! DEFINITION. The operand record of the command being executed, the refusal of an over-long frame
operand, the reductions of the scalar operands (30_encoding.md R51), and sample records. -/

namespace Sys2Proof.Machine

/-- The operand record of the command being executed (10_state.md R19). -/
def State.operands (s : State) : Option Operands := s.pending.head?.map Command.ops

/-- A TC frame operand that is present and too long (10_state.md R15). -/
def tcOperandTooLong (frame : Option TcFrame) : Bool := frame.any fun f => !f.wf

/-- A TM frame operand that is present and too long (10_state.md R17). -/
def tmOperandTooLong (frame : Option TmFrame) : Bool := frame.any fun f => !f.wf

/-- SCID to the 10-bit field (30_encoding.md R51). -/
def reduceScid (scid : BitVec 16) : BitVec 10 := mask 10 scid

/-- VCID to the 6-bit field of a TC frame (30_encoding.md R51). -/
def reduceTcVcid (vcid : BitVec 8) : BitVec 6 := mask 6 vcid

/-- VCID to the 3-bit field of a TM frame (30_encoding.md R51). -/
def reduceTmVcid (vcid : BitVec 8) : BitVec 3 := mask 3 vcid

/-- MAP to the 6-bit field (30_encoding.md R51). -/
def reduceMap (map : BitVec 8) : BitVec 6 := mask 6 map

/-- The TC frame record with every field 0 and an empty payload ("zeroed", 42_tc_codec.md R100). -/
def zeroTcFrame : TcFrame :=
  { version := Config.tcVersion, bypass := 0#1, cc := 0#1, reserved := 0#2, scid := 0#10, vcid := 0#6,
    frameLength := 0#10, seq := 0#8, segFlags := 0#2, mapId := 0#6, payload := [], fecf := 0#16 }

/-- The TM frame record with every field 0 and an empty payload ("zeroed", 43_tm_codec.md R140). -/
def zeroTmFrame : TmFrame :=
  { version := Config.tmVersion, scid := 0#10, vcid := 0#3, ocf := 0#1, mcfc := 0#8, vcfc := 0#8,
    dfStatus := 0#1, sync := 0#1, pktOrder := 0#1, segLenId := 0#2, fhp := 0#11, payload := [],
    fecf := 0#16 }

/-- An operand record of the shape that a command word's opcode asks for, for `State.withFetchWord`
only: a host that issues the word sends some record with it (10_state.md R19, R20). The decoders get
the frames of vectors V-TC-D6 and V-TM-4 (95_test_vectors.md). -/
def sampleOperands (opc : BitVec 8) : Operands :=
  if opc = 0x01#8 then .crc16 []
  else if opc = 0x10#8 then .tcCreate 0#16 0#8 0#8 (some []) true
  else if opc = 0x11#8 then .tcSetSeg (some zeroTcFrame) 0#2 0#8
  else if opc = 0x12#8 then .tcEncode (some zeroTcFrame) (some (List.replicate 8 0#8)) true
  else if opc = 0x13#8 then
    .decode (some [0x00#8, 0x00#8, 0x00#8, 0x06#8, 0x00#8, 0xBB#8, 0xAA#8]) true
  else if opc = 0x20#8 then .tmCreate 0#16 0#8 (some []) true
  else if opc = 0x21#8 then .tmEncode (some zeroTmFrame) (some (List.replicate 8 0#8)) true
  else if opc = 0x22#8 then
    .decode (some [0x00#8, 0x00#8, 0x01#8, 0x00#8, 0x18#8, 0x00#8, 0xF2#8, 0x7E#8]) true
  else if opc = 0x31#8 then .cntWrite 0#8
  else .cntRead

end Sys2Proof.Machine
end

