-- ==== Sys2Proof/Machine/Counter.lean ====
section
/-! DEFINITION. The counter family: CNT_READ, CNT_WRITE (44_counter.md). -/

namespace Sys2Proof.Machine

/-- CNT_READ (44_counter.md R170): always Success. -/
def execCntRead (s : State) : Outcome :=
  match s.operands with
  | some .cntRead => .next (s.succeed (.value s.ctr))
  | _ => .refused .operandShape

/-- CNT_WRITE (44_counter.md R172): always Success. -/
def execCntWrite (s : State) : Outcome :=
  match s.operands with
  | some (.cntWrite value) => .next ({ s with ctr := value }.succeed .none)
  | _ => .refused .operandShape

end Sys2Proof.Machine
end

