-- ==== Sys2Proof/Machine/Crc.lean ====
section
/-! DEFINITION. The CRC family: CRC16 (40_crc.md). -/

namespace Sys2Proof.Machine

/-- CRC16 (40_crc.md R81): always Success, for a byte sequence of any length. -/
def execCrc16 (s : State) : Outcome :=
  match s.operands with
  | some (.crc16 data) => .next (s.succeed (.crc (crc16 data)))
  | _ => .refused .operandShape

end Sys2Proof.Machine
end

