-- ==== Sys2Proof/Machine/Tc.lean ====
section
/-! DEFINITION. The TC family: TC_CREATE, TC_SET_SEG, TC_ENCODE, TC_DECODE (42_tc_codec.md) and the TC
wire format (30_encoding.md R55 to R58). -/

namespace Sys2Proof.Machine

/-! ### TC_CREATE -/

/-- The pseudocode of 42_tc_codec.md R100; its field values are R101, its failures R103. -/
def tcCreate (seg : Bool) (scid : BitVec 16) (vcid seq : BitVec 8) (payload : Option Bytes)
    (fout : Bool) : Except Failure TcFrame :=
  match fout, payload with
  | true, some p =>
    if Config.maxPayload < p.length then .error .invalidParameter
    else .ok { zeroTcFrame with
      scid := reduceScid scid
      vcid := reduceTcVcid vcid
      seq := seq
      payload := p
      frameLength := tcFlField p.length (tcSegPresent seg 0#1) }
  | _, _ => .error .invalidParameter

/-- TC_CREATE (42_tc_codec.md R100). -/
def execTcCreate (s : State) : Outcome :=
  match s.operands with
  | some (.tcCreate scid vcid seq payload fout) =>
    .next (s.conclude ((tcCreate s.segHdr scid vcid seq payload fout).map .tcFrame))
  | _ => .refused .operandShape

/-! ### TC_SET_SEG -/

/-- The pseudocode of 42_tc_codec.md R110; the control-command flag is not checked (R111). -/
def tcSetSeg (frame : Option TcFrame) (flags : BitVec 2) (map : BitVec 8) : Except Failure TcFrame :=
  match frame with
  | some f => .ok { f with segFlags := flags, mapId := reduceMap map }
  | none => .error .invalidParameter

/-- TC_SET_SEG (42_tc_codec.md R110), present only when SEG_HDR_ENABLED is true
(30_encoding.md R50). -/
def execTcSetSeg (s : State) : Outcome :=
  if s.segHdr then
    match s.operands with
    | some (.tcSetSeg frame flags map) =>
      if tcOperandTooLong frame then .refused .payloadTooLong
      else .next (s.conclude ((tcSetSeg frame flags map).map .tcFrame))
    | _ => .refused .operandShape
  else .refused .segHdrNotPresent

/-! ### TC_ENCODE -/

/-- The TC primary header H with the frame-length field `fl` (30_encoding.md R56). -/
def tcHeader (f : TcFrame) (fl : BitVec 10) : BitVec 40 :=
  f.version ++ f.bypass ++ f.cc ++ f.reserved ++ f.scid ++ f.vcid ++ fl ++ f.seq

/-- The five bytes of a TC primary header, big-endian (20_memory.md R31, 30_encoding.md R57). -/
def tcHeaderBytes (h : BitVec 40) : Bytes :=
  [h.extractLsb' 32 8, h.extractLsb' 24 8, h.extractLsb' 16 8, h.extractLsb' 8 8, h.extractLsb' 0 8]

/-- The TC segment header byte (30_encoding.md R58). -/
def tcSegByte (f : TcFrame) : Byte := f.segFlags ++ f.mapId

/-- What TC_ENCODE emits before the FECF: primary header, segment header when present, payload
(42_tc_codec.md R120, R122, R123, R124). -/
def tcEncodeBody (seg : Bool) (f : TcFrame) : Bytes :=
  let s := tcSegPresent seg f.cc
  tcHeaderBytes (tcHeader f (tcFlField f.payload.length s)) ++
    (if s = 1 then [tcSegByte f] else []) ++ f.payload

/-- The encoded TC frame: the body and its CRC, high byte first (30_encoding.md R55). -/
def tcEncodeFrame (seg : Bool) (f : TcFrame) : Bytes :=
  tcEncodeBody seg f ++ be16 (crc16 (tcEncodeBody seg f))

/-- The pseudocode of 42_tc_codec.md R120: DST' and LEN, or the failure (R121; presence is checked
first, 60_exceptions.md R187). -/
def tcEncode (seg : Bool) (frame : Option TcFrame) (dst : Option Bytes) (lout : Bool) :
    Except Failure (Bytes × Nat) :=
  match frame, dst, lout with
  | some f, some d, true =>
    let n := tcTotalLen f.payload.length (tcSegPresent seg f.cc)
    if d.length < n then .error .bufferTooSmall
    else .ok (memWrite d 0 (tcEncodeFrame seg f), n)
  | _, _, _ => .error .invalidParameter

/-- TC_ENCODE (42_tc_codec.md R120). -/
def execTcEncode (s : State) : Outcome :=
  match s.operands with
  | some (.tcEncode frame dst lout) =>
    if tcOperandTooLong frame then .refused .payloadTooLong
    else .next (s.concludeEncode dst (tcEncode s.segHdr frame dst lout))
  | _ => .refused .operandShape

/-! ### TC_DECODE -/

/-- The received TC primary header H (30_encoding.md R56). -/
def tcReceivedHeader (b : Bytes) : BitVec 40 :=
  byteAt b 0 ++ byteAt b 1 ++ byteAt b 2 ++ byteAt b 3 ++ byteAt b 4

/-- The record with the fields of a received TC primary header, the inverse of 30_encoding.md R56
(42_tc_codec.md R132). -/
def tcParseHeader (h : BitVec 40) : TcFrame :=
  { zeroTcFrame with
    version := h.extractLsb' 38 2
    bypass := h.extractLsb' 37 1
    cc := h.extractLsb' 36 1
    reserved := h.extractLsb' 34 2
    scid := h.extractLsb' 24 10
    vcid := h.extractLsb' 18 6
    frameLength := h.extractLsb' 8 10
    seq := h.extractLsb' 0 8 }

/-- Whether TC_DECODE parses a segment header, as a number: `SEG_HDR_ENABLED ∧ E = 1 ∧ cc = 0`
(42_tc_codec.md R131). -/
def tcSegParsed (seg e : Bool) (cc : BitVec 1) : Nat :=
  if e = true ∧ seg = true ∧ cc = 0#1 then 1 else 0

/-- The record with the fields of the segment header byte at index 5, when one is parsed
(30_encoding.md R58, 42_tc_codec.md R130). -/
def tcParseSeg (b : Bytes) (s : Nat) (f : TcFrame) : TcFrame :=
  if s = 1 then
    { f with segFlags := (byteAt b 5).extractLsb' 6 2, mapId := (byteAt b 5).extractLsb' 0 6 }
  else f

/-- The pseudocode of 42_tc_codec.md R130, its checks in its order (60_exceptions.md R187). -/
def tcDecode (seg e : Bool) (src : Option Bytes) (fout : Bool) : Except Failure TcFrame :=
  match src, fout with
  | some b, true =>
    if b.length < Config.tcPhLen + Config.fecfLen then .error .invalidParameter
    else
      let f := tcParseHeader (tcReceivedHeader b)
      let s := tcSegParsed seg e f.cc
      if s = 1 ∧ b.length < Config.tcPhLen + Config.segHdrLen + Config.fecfLen then
        .error .invalidFrame
      else
        let p := tcRxPayloadLen b.length s
        if (Config.maxPayload : Int) < p then .error .invalidFrame
        else if receivedCrc b ≠ declaredFecf b then .error .crcMismatch
        else .ok { tcParseSeg b s f with
          payload := memRead b (Config.tcPhLen + s) p.toNat
          fecf := declaredFecf b }
  | _, _ => .error .invalidParameter

/-- TC_DECODE (42_tc_codec.md R130). E = 1 is legal only when SEG_HDR_ENABLED is true
(30_encoding.md R47). -/
def execTcDecode (e : Bool) (s : State) : Outcome :=
  if e && !s.segHdr then .refused .segHdrNotPresent
  else
    match s.operands with
    | some (.decode src fout) => .next (s.conclude ((tcDecode s.segHdr e src fout).map .tcFrame))
    | _ => .refused .operandShape

end Sys2Proof.Machine
end

