-- ==== Sys2Proof/Machine/Tm.lean ====
section
/-! DEFINITION. The TM family: TM_CREATE, TM_ENCODE, TM_DECODE (43_tm_codec.md) and the TM wire format
(30_encoding.md R59 to R63). -/

namespace Sys2Proof.Machine

/-! ### TM_CREATE -/

/-- The frame of 43_tm_codec.md R140, with `ctr` the counter before the command; its field values are
R141. -/
def tmCreate (ctr : Count) (scid : BitVec 16) (vcid : BitVec 8) (payload : Option Bytes)
    (fout : Bool) : Except Failure TmFrame :=
  match fout, payload with
  | true, some p =>
    if Config.maxPayload < p.length then .error .invalidParameter
    else .ok { zeroTmFrame with
      scid := reduceScid scid
      vcid := reduceTmVcid vcid
      mcfc := ctr
      segLenId := Config.tmSegLenId
      payload := p }
  | _, _ => .error .invalidParameter

/-- TM_CREATE (43_tm_codec.md R140). The counter advances modulo 256 on Success only
(R142, R143). -/
def execTmCreate (s : State) : Outcome :=
  match s.operands with
  | some (.tmCreate scid vcid payload fout) =>
    match tmCreate s.ctr scid vcid payload fout with
    | .ok f => .next ({ s with ctr := s.ctr + 1#8 }.succeed (.tmFrame f))
    | .error why => .next (s.fail why)
  | _ => .refused .operandShape

/-! ### TM_ENCODE -/

/-- The data-field-status word W (30_encoding.md R62, 43_tm_codec.md R151). -/
def tmStatusWord (f : TmFrame) : BitVec 16 :=
  f.dfStatus ++ f.sync ++ f.pktOrder ++ f.segLenId ++ f.fhp

/-- The TM primary header H (30_encoding.md R60). -/
def tmHeader (f : TmFrame) : BitVec 48 :=
  f.version ++ f.scid ++ f.vcid ++ f.ocf ++ f.mcfc ++ f.vcfc ++ tmStatusWord f

/-- The six bytes of a TM primary header, big-endian (20_memory.md R31, 30_encoding.md R61). -/
def tmHeaderBytes (h : BitVec 48) : Bytes :=
  [h.extractLsb' 40 8, h.extractLsb' 32 8, h.extractLsb' 24 8, h.extractLsb' 16 8,
   h.extractLsb' 8 8, h.extractLsb' 0 8]

/-- What TM_ENCODE emits before the FECF (43_tm_codec.md R150). -/
def tmEncodeBody (f : TmFrame) : Bytes := tmHeaderBytes (tmHeader f) ++ f.payload

/-- The encoded TM frame: the body and its CRC, high byte first (30_encoding.md R59). -/
def tmEncodeFrame (f : TmFrame) : Bytes := tmEncodeBody f ++ be16 (crc16 (tmEncodeBody f))

/-- The pseudocode of 43_tm_codec.md R150: DST' and LEN, or the failure (R152; presence is checked
first, 60_exceptions.md R187). -/
def tmEncode (frame : Option TmFrame) (dst : Option Bytes) (lout : Bool) :
    Except Failure (Bytes × Nat) :=
  match frame, dst, lout with
  | some f, some d, true =>
    let n := tmTotalLen f.payload.length
    if d.length < n then .error .bufferTooSmall else .ok (memWrite d 0 (tmEncodeFrame f), n)
  | _, _, _ => .error .invalidParameter

/-- TM_ENCODE (43_tm_codec.md R150). It does not touch the counter. -/
def execTmEncode (s : State) : Outcome :=
  match s.operands with
  | some (.tmEncode frame dst lout) =>
    if tmOperandTooLong frame then .refused .payloadTooLong
    else .next (s.concludeEncode dst (tmEncode frame dst lout))
  | _ => .refused .operandShape

/-! ### TM_DECODE -/

/-- The received TM primary header H (30_encoding.md R60). -/
def tmReceivedHeader (b : Bytes) : BitVec 48 :=
  byteAt b 0 ++ byteAt b 1 ++ byteAt b 2 ++ byteAt b 3 ++ byteAt b 4 ++ byteAt b 5

/-- The record with the fields of a received TM primary header, the inverse of 30_encoding.md R60 and
R62 (43_tm_codec.md R161). -/
def tmParseHeader (h : BitVec 48) : TmFrame :=
  let w : BitVec 16 := h.extractLsb' 0 16
  { zeroTmFrame with
    version := h.extractLsb' 46 2
    scid := h.extractLsb' 36 10
    vcid := h.extractLsb' 33 3
    ocf := h.extractLsb' 32 1
    mcfc := h.extractLsb' 24 8
    vcfc := h.extractLsb' 16 8
    dfStatus := w.extractLsb' 15 1
    sync := w.extractLsb' 14 1
    pktOrder := w.extractLsb' 13 1
    segLenId := w.extractLsb' 11 2
    fhp := w.extractLsb' 0 11 }

/-- The pseudocode of 43_tm_codec.md R160, its checks in its order (60_exceptions.md R187). -/
def tmDecode (src : Option Bytes) (fout : Bool) : Except Failure TmFrame :=
  match src, fout with
  | some b, true =>
    if b.length < Config.tmPhLen + Config.fecfLen then .error .invalidParameter
    else
      let p := tmRxPayloadLen b.length
      if (Config.maxPayload : Int) < p then .error .invalidFrame
      else if receivedCrc b ≠ declaredFecf b then .error .crcMismatch
      else .ok { tmParseHeader (tmReceivedHeader b) with
        payload := memRead b Config.tmPhLen p.toNat
        fecf := declaredFecf b }
  | _, _ => .error .invalidParameter

/-- TM_DECODE (43_tm_codec.md R160). It neither reads nor writes the counter. -/
def execTmDecode (s : State) : Outcome :=
  match s.operands with
  | some (.decode src fout) => .next (s.conclude ((tmDecode src fout).map .tmFrame))
  | _ => .refused .operandShape

end Sys2Proof.Machine
end

