-- ==== Sys2Proof/Machine/Dispatch.lean ====
section
/-! DEFINITION. One arm per command: the meaning of every row of spec/opcode_table.json. -/

namespace Sys2Proof.Machine

/-- The meaning of a command whose operand record heads the issued commands. -/
def exec (i : Instr) (s : State) : Host.Outcome State Fault Refusal :=
  match i with
  | .crc16 => Sys2Proof.Machine.execCrc16 s
  | .tcCreate => Sys2Proof.Machine.execTcCreate s
  | .tcSetSeg => Sys2Proof.Machine.execTcSetSeg s
  | .tcEncode => Sys2Proof.Machine.execTcEncode s
  | .tcDecode e => Sys2Proof.Machine.execTcDecode e s
  | .tmCreate => Sys2Proof.Machine.execTmCreate s
  | .tmEncode => Sys2Proof.Machine.execTmEncode s
  | .tmDecode => Sys2Proof.Machine.execTmDecode s
  | .cntRead => Sys2Proof.Machine.execCntRead s
  | .cntWrite => Sys2Proof.Machine.execCntWrite s

end Sys2Proof.Machine
end

