-- ==== Sys2Proof/Machine/Step.lean ====
section
/-! DEFINITION. One step of the machine, and how a command word is placed where the next step takes
it. -/

namespace Sys2Proof.Machine

/-- One step: the first command the host has issued is decoded and executed, as one atomic step
(10_state.md R11, R24, R25). With no command issued the block waits. -/
def step (s : State) : Host.Outcome State Fault Refusal :=
  match fetch s with
  | none => .next (idle s)
  | some w =>
    match decode w with
    | .error why => .refused (.illegalWord why)
    | .ok i => exec i s

/-- `s` with the command of word `w` issued ahead of every other. The block fetches nothing
(10_state.md R11, 20_memory.md R40), so this stands for the host: it issues the word with a sample
operand record of its opcode's shape (log entry 5). -/
def State.withFetchWord (s : State) (nbits w : Nat) : State :=
  { s with pending :=
      { word := BitVec.ofNat 32 (w % 2 ^ nbits)
        ops := sampleOperands (opcOf (BitVec.ofNat 32 (w % 2 ^ nbits))) } :: s.pending }

end Sys2Proof.Machine
end

