-- ==== Sys2Proof/Machine/Assembler.lean ====
section
/-! DEFINITION. The assembler's lines (30_encoding.md R52, R53): what a line's parts stand for, and the one
command a line is. Only how a line's characters are cut into parts is left to a reader of text. -/

namespace Sys2Proof.Machine

/-- An operand as it is written (30_encoding.md R52). -/
inductive AsmArg where
  /-- A scalar, written as a number. -/
  | num (n : Nat)
  /-- A byte sequence, written `[b0, b1, …]`. -/
  | bytes (b : Bytes)
  /-- A byte sequence, written as a string literal. -/
  | text (s : String)
  /-- A destination buffer of capacity `c`, written `buf[c]`. -/
  | buf (c : Nat)
  /-- A frame operand: the name of a frame that an earlier command returned. -/
  | frame (name : String)
  /-- An absent reference operand, written `-`. -/
  | absent
  deriving DecidableEq, Repr

/-- An output slot as it is written: `-> name`, or `-> -` when it is absent (30_encoding.md R52). -/
inductive AsmSlot where
  | named (name : String)
  | absent
  deriving DecidableEq, Repr

/-- A line: mnemonic, operands in the order of 10_state.md R20, and what follows the arrow, if any. -/
structure AsmLine where
  mnemonic : String
  args     : List AsmArg
  out      : Option AsmSlot
  deriving DecidableEq, Repr

/-- The frames that earlier commands returned, under the names their lines gave them. -/
structure AsmFrames where
  tc : List (String × TcFrame)
  tm : List (String × TmFrame)
  deriving DecidableEq, Repr

/-- `"text"` is the sequence of the ASCII codes of the text (00_scope.md section 5.2). The spec gives a
character that is not ASCII no byte; that it stands for its code point modulo 256 is the model's own
(DESIGN CHOICE, log entry 11). -/
def asciiBytes (s : String) : Bytes := s.toList.map fun c => BitVec.ofNat 8 c.toNat

/-- A scalar operand of width `w`; a number that does not fit is no operand. -/
def AsmArg.scalar (w : Nat) : AsmArg → Option (BitVec w)
  | .num n => if n < 2 ^ w then some (BitVec.ofNat w n) else none
  | _ => none

/-- A byte sequence that is never absent. -/
def AsmArg.present : AsmArg → Option Bytes
  | .bytes b => some b
  | .text s => some (asciiBytes s)
  | _ => none

/-- A byte sequence that may be absent: PAYLOAD, SRC. -/
def AsmArg.source : AsmArg → Option (Option Bytes)
  | .absent => some none
  | a => a.present.map some

/-- A destination: a fresh buffer holds 0x00 "unless the program states otherwise"
(30_encoding.md R52), which it does by writing the bytes. -/
def AsmArg.destination : AsmArg → Option (Option Bytes)
  | .buf c => some (some (List.replicate c 0#8))
  | a => a.source

/-- A frame operand, looked up by its name. -/
def AsmArg.frameIn {α : Type} (frames : List (String × α)) : AsmArg → Option (Option α)
  | .frame name => (frames.lookup name).map some
  | .absent => some none
  | _ => none

/-- The slot operand FOUT or LOUT of a command that has one. -/
def slotOperand : Option AsmSlot → Option Bool
  | some (.named _) => some true
  | some .absent => some false
  | none => none

/-- A command without a slot operand: an arrow may name its result. -/
def noSlotOperand : Option AsmSlot → Option Unit
  | some .absent => none
  | _ => some ()

/-- The operand record of a line (10_state.md R20). -/
def lineOperands (fs : AsmFrames) (i : Instr) (args : List AsmArg) (out : Option AsmSlot) :
    Option Operands :=
  match i, args with
  | .crc16, [data] => do
    noSlotOperand out
    return .crc16 (← data.present)
  | .tcCreate, [scid, vcid, seq, payload] => do
    return .tcCreate (← scid.scalar 16) (← vcid.scalar 8) (← seq.scalar 8) (← payload.source)
      (← slotOperand out)
  | .tcSetSeg, [frame, flags, map] => do
    noSlotOperand out
    return .tcSetSeg (← frame.frameIn fs.tc) (← flags.scalar 2) (← map.scalar 8)
  | .tcEncode, [frame, dst] => do
    return .tcEncode (← frame.frameIn fs.tc) (← dst.destination) (← slotOperand out)
  | .tcDecode _, [src] => do
    return .decode (← src.source) (← slotOperand out)
  | .tmCreate, [scid, vcid, payload] => do
    return .tmCreate (← scid.scalar 16) (← vcid.scalar 8) (← payload.source) (← slotOperand out)
  | .tmEncode, [frame, dst] => do
    return .tmEncode (← frame.frameIn fs.tm) (← dst.destination) (← slotOperand out)
  | .tmDecode, [src] => do
    return .decode (← src.source) (← slotOperand out)
  | .cntRead, [] => do
    noSlotOperand out
    return .cntRead
  | .cntWrite, [value] => do
    noSlotOperand out
    return .cntWrite (← value.scalar 8)
  | _, _ => none

/-- The one command a line is: the word of its mnemonic and the operand record of its operands
(30_encoding.md R52, R53). -/
def assembleLine (fs : AsmFrames) (l : AsmLine) : Option Command := do
  let i ← assemble l.mnemonic
  let ops ← lineOperands fs i l.args l.out
  return ⟨i.encode, ops⟩

end Sys2Proof.Machine
end

