-- ==== Sys2Proof/Safety.lean ====
section
/-! DEFINITION. What the claims are stated in: which commands have a meaning, which statuses a command
may return, what counts as a well-formed state, what a flipped bit is. None of it is read by the
machine. -/

namespace Sys2Proof.Machine

/-! ### Commands without a meaning -/

/-- The ten opcodes (30_encoding.md R46). -/
def opcodes : List (BitVec 8) :=
  [0x01#8, 0x10#8, 0x11#8, 0x12#8, 0x13#8, 0x20#8, 0x21#8, 0x22#8, 0x30#8, 0x31#8]

/-- The operand record has the shape 10_state.md R20 gives the opcode. -/
def shapeOfOpc (opc : BitVec 8) : Operands → Bool
  | .crc16 _ => opc == 0x01#8
  | .tcCreate _ _ _ _ _ => opc == 0x10#8
  | .tcSetSeg _ _ _ => opc == 0x11#8
  | .tcEncode _ _ _ => opc == 0x12#8
  | .decode _ _ => opc == 0x13#8 || opc == 0x22#8
  | .tmCreate _ _ _ _ => opc == 0x20#8
  | .tmEncode _ _ _ => opc == 0x21#8
  | .cntRead => opc == 0x30#8
  | .cntWrite _ => opc == 0x31#8

end Sys2Proof.Machine

namespace Sys2Proof
open Machine

/-- The six cases of 60_exceptions.md R190, read off the command word's bits and the operand record,
with no use of the decoder. -/
def Command.meaningless (seg : Bool) (c : Command) : Prop :=
  opcOf c.word ∉ opcodes ∨
  resOf c.word ≠ 0#23 ∨
  (eOf c.word = true ∧ (opcOf c.word ≠ 0x13#8 ∨ seg = false)) ∨
  (opcOf c.word = 0x11#8 ∧ seg = false) ∨
  c.ops.wf = false ∨
  shapeOfOpc (opcOf c.word) c.ops = false

/-- The DST operand of an encode command (10_state.md R20). -/
def Operands.dst : Operands → Option Bytes
  | .tcEncode _ dst _ => dst
  | .tmEncode _ dst _ => dst
  | _ => none

/-! ### The counter -/

/-- A TM_CREATE that completes with Success (43_tm_codec.md R140): it takes a count. -/
def Command.takesCount (c : Command) : Bool :=
  match decode c.word, c.ops with
  | .ok .tmCreate, .tmCreate _ _ (some p) true => decide (p.length ≤ Config.maxPayload)
  | _, _ => false

/-- A CNT_WRITE. -/
def Command.isCntWrite (c : Command) : Bool := opcOf c.word == 0x31#8

/-- A command that reads or writes CTR: TM_CREATE, CNT_READ, CNT_WRITE (10_state.md R12). -/
def Command.touchesCtr (c : Command) : Bool :=
  opcOf c.word == 0x20#8 || opcOf c.word == 0x30#8 || opcOf c.word == 0x31#8

end Sys2Proof

namespace Sys2Proof.Machine

/-! ### Statuses -/

/-- The table of 60_exceptions.md R185: the statuses each command can return. -/
def mayReturn : Instr → Status → Bool
  | _, .success => true
  | .tcCreate, .failed .invalidParameter => true
  | .tcSetSeg, .failed .invalidParameter => true
  | .tcEncode, .failed .invalidParameter => true
  | .tcDecode _, .failed .invalidParameter => true
  | .tmCreate, .failed .invalidParameter => true
  | .tmEncode, .failed .invalidParameter => true
  | .tmDecode, .failed .invalidParameter => true
  | .tcEncode, .failed .bufferTooSmall => true
  | .tmEncode, .failed .bufferTooSmall => true
  | .tcDecode _, .failed .invalidFrame => true
  | .tmDecode, .failed .invalidFrame => true
  | .tcDecode _, .failed .crcMismatch => true
  | .tmDecode, .failed .crcMismatch => true
  | _, _ => false

/-! ### Well-formed states -/

/-- What every delivered result meets: frames are well-formed (10_state.md R15, R17), the
segment-header fields hold 0 in a block without the feature (R14), and an encoded frame lies within
its buffer, has a legal length (41_primitives.md R91, R92) and CRC residue 0 (40_crc.md R83). -/
def Results.wf (seg : Bool) : Results → Prop
  | .tcFrame f => f.wf = true ∧ (seg = false → f.noSegHdr = true)
  | .tmFrame f => f.wf = true
  | .encoded dst len => 7 ≤ len ∧ len ≤ 1032 ∧ len ≤ dst.length ∧ crc16 (dst.take len) = 0#16
  | .none => True
  | .crc _ => True
  | .value _ => True

/-- A well-formed result record. -/
def ResultRecord.wf (seg : Bool) : ResultRecord → Prop
  | .success r => r.wf seg
  | .failure _ _ => True

/-- The invariant of the machine: every result record the host has received is well-formed for the
build that delivered it. -/
def State.Inv (s : State) : Prop := ∀ r ∈ s.delivered, r.wf s.segHdr

/-! ### Corrupted frames -/

/-- `b` with bit `k` of byte `i` changed. -/
def flipBit (b : Bytes) (i k : Nat) : Bytes := b.modify i fun x => x ^^^ (1#8 <<< k)

end Sys2Proof.Machine
end

