-- ==== Sys2Proof/Certificates/Slice0/Obligations.lean ====
section
/-! DEFINITION. The statements for the provers. Each docstring names the rule of the spec it
formalises. -/

open Sys2Proof Sys2Proof.Machine

namespace Sys2Proof.Claims

/-- The command words that decode to `i` are those that agree with `value` on the bits of `mask`
(a row of spec/opcode_table.json). -/
def hasWord (i : Instr) (value mask : CmdWord) : Prop :=
  ∀ w : CmdWord, decode w = .ok i ↔ w &&& mask = value

/-- The next command of `s` has the operand record `ops`; `rest` follows it. -/
def issued (s : State) (ops : Operands) (rest : List Command) : Prop :=
  ∃ w : CmdWord, s.pending = ⟨w, ops⟩ :: rest

/-- `s` after a command that delivers `r` and changes nothing else. -/
def answered (s : State) (rest : List Command) (r : ResultRecord) : State :=
  { s with pending := rest, delivered := r :: s.delivered }

/-- The step completes with the failure `why` and DST' of the length of `dst`, whatever its bytes; the
counter and the build parameter are unchanged. -/
def failsWithDst (s : State) (rest : List Command) (o : Outcome) (why : Failure)
    (dst : Option Bytes) : Prop :=
  ∃ (t : State) (dst' : Option Bytes), o = .next t ∧ t.ctr = s.ctr ∧ t.segHdr = s.segHdr ∧
    t.pending = rest ∧ t.delivered = .failure why dst' :: s.delivered ∧
    dst'.map List.length = dst.map List.length

/-- The number of segment-header bytes a TC frame has on the wire. -/
def segCount (seg : Bool) (cc : BitVec 1) : Nat := if seg = true ∧ cc = 0#1 then 1 else 0

/-- A TC frame that TC_CREATE returns on a block of build `seg`. -/
def createdTc (seg : Bool) (f : TcFrame) : Prop :=
  ∃ s t : State, s.segHdr = seg ∧ exec .tcCreate s = .next t ∧
    t.delivered.head? = some (.success (.tcFrame f))

/-- A TC frame that TC_SET_SEG returns for one that TC_CREATE returned. -/
def createdAndSetTc (seg : Bool) (f : TcFrame) : Prop :=
  ∃ (g : TcFrame) (flags : BitVec 2) (map : BitVec 8) (rest : List Command) (s t : State),
    createdTc seg g ∧ s.segHdr = seg ∧ issued s (.tcSetSeg (some g) flags map) rest ∧
    exec .tcSetSeg s = .next t ∧ t.delivered.head? = some (.success (.tcFrame f))

open Polynomial in
/-- The polynomial over GF(2) whose coefficient of x^i is bit i of `v`. -/
noncomputable def bitsPoly {n : Nat} (v : BitVec n) : (ZMod 2)[X] :=
  ∑ i ∈ Finset.range n, if v.getLsbD i then X ^ i else 0

open Polynomial in
/-- The polynomial whose coefficients are the bits of `d`, the first byte's bit 7 highest. -/
noncomputable def bytesPoly : Bytes → (ZMod 2)[X]
  | [] => 0
  | b :: d => bitsPoly b * X ^ (8 * d.length) + bytesPoly d

end Sys2Proof.Claims

open Sys2Proof.Claims

/-! ### Command words -/

/-- The words of the opcode table, written out from 30_encoding.md R46, decode to their commands. -/
def Obligations.TableWordsDecode : Prop :=
  decode 0x00000001#32 = .ok .crc16 ∧ decode 0x00000010#32 = .ok .tcCreate ∧
  decode 0x00000011#32 = .ok .tcSetSeg ∧ decode 0x00000012#32 = .ok .tcEncode ∧
  decode 0x00000013#32 = .ok (.tcDecode false) ∧ decode 0x00000113#32 = .ok (.tcDecode true) ∧
  decode 0x00000020#32 = .ok .tmCreate ∧ decode 0x00000021#32 = .ok .tmEncode ∧
  decode 0x00000022#32 = .ok .tmDecode ∧ decode 0x00000030#32 = .ok .cntRead ∧
  decode 0x00000031#32 = .ok .cntWrite

/-- Decode and encode agree in both directions: a word decodes to a command exactly when it is the
encoder's word for it (30_encoding.md R45, R46). -/
def Obligations.DecodeIffEncode : Prop :=
  ∀ (w : CmdWord) (i : Instr), decode w = .ok i ↔ w = i.encode

/-- 30_encoding.md R47 to R50: a command with a reserved bit set, a reserved opcode, an E = 1 that is
not TC_DECODE's or not of this build, or TC_SET_SEG in a build without it, is refused; and there are
246 reserved opcodes. -/
def Obligations.ReservedCommandsAreRefused : Prop :=
  (∀ (s : State) (c : Command) (rest : List Command), s.pending = c :: rest →
    (resOf c.word ≠ 0#23 ∨ opcOf c.word ∉ opcodes ∨
      (eOf c.word = true ∧ opcOf c.word ≠ 0x13#8) ∨
      (eOf c.word = true ∧ s.segHdr = false) ∨
      (opcOf c.word = 0x11#8 ∧ s.segHdr = false)) →
    ∃ r, step s = .refused r) ∧
  ((List.range 256).filter fun n => !opcodes.contains (BitVec.ofNat 8 n)).length = 246

/-- 60_exceptions.md R190 and 10_state.md R25: a command is refused exactly when it is one of the six
kinds without a meaning; every other command completes with exactly one result record. -/
def Obligations.CommandsCompleteUnlessMeaningless : Prop :=
  ∀ (s : State) (c : Command) (rest : List Command), s.pending = c :: rest →
    ((∃ r, step s = .refused r) ↔ c.meaningless s.segHdr) ∧
    (¬ c.meaningless s.segHdr →
      ∃ (t : State) (r : ResultRecord), step s = .next t ∧ t.pending = rest ∧
        t.delivered = r :: s.delivered)

/-- 30_encoding.md section A.4: every command has an assembler name of its own. -/
def Obligations.AssemblerNamesAreUnambiguous : Prop :=
  ∀ i : Instr, assemble i.asmName = some i

/-- 30_encoding.md R52, R53 (section A.4): every line of a program that assembles is exactly one command:
its word decodes to the command its mnemonic names, with an operand record of that command's
shape. -/
def Obligations.EveryLineIsOneCommand : Prop :=
  ∀ (fs : AsmFrames) (l : AsmLine) (c : Command), assembleLine fs l = some c →
    ∃ i : Instr, assemble l.mnemonic = some i ∧ decode c.word = .ok i ∧ i.fits c.ops = true

/-- 30_encoding.md R54: the four sequence flags have the four values in listed order, and every value
is the number of the flag it names. -/
def Obligations.SeqFlagsAreNumberedInOrder : Prop :=
  SeqFlags.continuing.code = 0b00#2 ∧ SeqFlags.first.code = 0b01#2 ∧
  SeqFlags.last.code = 0b10#2 ∧ SeqFlags.noSegmentation.code = 0b11#2 ∧
  ∀ v : BitVec 2, (SeqFlags.ofCode v).code = v

/-! ### Steps, the reset state and whole-machine rules -/

/-- 70_reset_and_hazards.md R200: at reset CTR is 0x00. -/
def Obligations.ResetCounterIsZero : Prop :=
  State.reset.ctr = 0x00#8 ∧ core.reset = State.reset

/-- 70_reset_and_hazards.md section 1 (the table of R201): at reset SEG_HDR_ENABLED has its build-time
value, whatever that is (log entry 2), no command is in progress and no record is held (the two lists
are the model's, log entry 1). -/
def Obligations.ResetHoldsNoCommandOrResult : Prop :=
  State.reset.segHdr = Config.segHdrBuilt ∧ State.reset.pending = [] ∧ State.reset.delivered = []

/-- 10_state.md R11, R24: a step executes the command that the first issued word decodes to, and
refuses a word that decodes to none (30_encoding.md R47 to R49). The spec gives a refusal no reason:
that it carries the decoder's, and that the word is looked at before the operand record's shape and
a frame's length, is the model's choice (DESIGN CHOICE, log entry 7). -/
def Obligations.StepRunsDecodedCommand : Prop :=
  ∀ (s : State) (c : Command) (rest : List Command), s.pending = c :: rest →
    (∀ i, decode c.word = .ok i → step s = exec i s) ∧
    (∀ why, decode c.word = .error why → step s = .refused (.illegalWord why))

/-- The model's choice (log entry 4): with no command issued the block waits. -/
def Obligations.BlockWaitsWithoutCommand : Prop :=
  ∀ s : State, s.pending = [] → step s = .next s

/-- 00_scope.md R3 and 10_state.md R13: no step changes the build parameter. -/
def Obligations.BuildParameterIsConstant : Prop :=
  ∀ s t : State, step s = .next t → t.segHdr = s.segHdr

/-- 10_state.md R12: CTR is written by TM_CREATE, which increments it modulo 256, and CNT_WRITE, which
loads it; every other command leaves it. -/
def Obligations.OnlyTmCreateAndCntWriteWriteCtr : Prop :=
  ∀ (i : Instr) (s t : State), exec i s = .next t →
    (i ≠ .tmCreate → i ≠ .cntWrite → t.ctr = s.ctr) ∧
    (i = .tmCreate → t.ctr = s.ctr ∨ t.ctr.toNat = (s.ctr.toNat + 1) % 256) ∧
    (i = .cntWrite → ∃ (v : BitVec 8) (rest : List Command),
      issued s (.cntWrite v) rest ∧ t.ctr = v)

/-- The frame of every command: when exec answers a next state, only the counter, the issued commands,
the delivered results (log entry 1) and the model's draw counter (log entry 3) can differ; the issued commands lose their
first, the earlier results stay, and the draw counter moves for an encode command only. -/
def Obligations.CommandFrame : Prop :=
  ∀ (i : Instr) (s t : State), exec i s = .next t →
    t.segHdr = s.segHdr ∧ t.pending = s.pending.tail ∧
    (∃ r : ResultRecord, t.delivered = r :: s.delivered) ∧
    (i ≠ .tcEncode → i ≠ .tmEncode → t.draws = s.draws)

/-- 60_exceptions.md R186: a command that completes with a failure leaves CTR and the other commands'
results, and delivers nothing but, when it had a present DST, a DST' of the same length. -/
def Obligations.FailureLeavesNothingBehind : Prop :=
  ∀ (i : Instr) (s t : State) (ops : Operands) (rest : List Command) (why : Failure)
    (dst' : Option Bytes),
    issued s ops rest → exec i s = .next t → t.delivered = .failure why dst' :: s.delivered →
    t.ctr = s.ctr ∧ t.segHdr = s.segHdr ∧ t.pending = rest ∧
    dst'.map List.length = ops.dst.map List.length

/-- 60_exceptions.md R185: a command can return a status exactly when the table says so. -/
def Obligations.StatusTableIsExact : Prop :=
  ∀ (i : Instr) (st : Status), mayReturn i st = true ↔
    ∃ (s t : State) (r : ResultRecord), exec i s = .next t ∧ t.delivered = r :: s.delivered ∧
      r.status = st

/-- 10_state.md R15, R17, R14: every step keeps the invariant that every delivered result is
well-formed: frames hold at most 1024 payload bytes, segment-header fields are 0 in a build
without them, an encoded frame has a legal length, fits its buffer and has CRC residue 0. -/
def Obligations.StepsKeepResultsWellFormed : Prop :=
  ∀ s t : State, s.Inv → step s = .next t → t.Inv

/-- The invariant holds at reset. -/
def Obligations.ResetResultsWellFormed : Prop := State.reset.Inv

/-- 70_reset_and_hazards.md R208: a run of finitely many commands that have a meaning ends, with one
result record for each. -/
def Obligations.FiniteRunsComplete : Prop :=
  ∀ s : State, (∀ c ∈ s.pending, ¬ c.meaningless s.segHdr) →
    ∃ (t : State) (rs : List ResultRecord), core.run s.pending.length s = .next t ∧
      t.pending = [] ∧ rs.length = s.pending.length ∧ t.delivered = rs ++ s.delivered

/-- 10_state.md R18, R23 and 20_memory.md R38: what a command does depends only on itself, the build
and CTR. Two blocks that agree on these, whatever was delivered before, whatever is issued after
and whatever was drawn, give the same CTR and the same readable result. -/
def Obligations.ResultDependsOnlyOnCommandAndCtr : Prop :=
  ∀ (s u s' : State) (c : Command) (rest rest' : List Command),
    s.pending = c :: rest → u.pending = c :: rest' → u.ctr = s.ctr → u.segHdr = s.segHdr →
    step s = .next s' →
    ∃ (u' : State) (r q : ResultRecord), step u = .next u' ∧ u'.ctr = s'.ctr ∧
      s'.delivered = r :: s.delivered ∧ u'.delivered = q :: u.delivered ∧
      q.readable = r.readable

/-- 20_memory.md R38: a command that does not touch CTR commutes with every other command: in either
order the counter ends the same and each command's readable result is the same. -/
def Obligations.CtrFreeCommandsCommute : Prop :=
  ∀ (s t : State) (c d : Command) (rest : List Command), c.touchesCtr = false →
    s.pending = c :: d :: rest → core.run 2 s = .next t →
    ∃ (u : State) (rc rd qc qd : ResultRecord),
      core.run 2 { s with pending := d :: c :: rest } = .next u ∧
      u.ctr = t.ctr ∧ u.pending = t.pending ∧
      t.delivered = rd :: rc :: s.delivered ∧ u.delivered = qc :: qd :: s.delivered ∧
      qc.readable = rc.readable ∧ qd.readable = rd.readable

/-! ### The CRC engine -/

/-- 40_crc.md R82. -/
def Obligations.CrcOfEmptySpanIsPreset : Prop :=
  crc16 [] = Config.crcInit ∧ Config.crcInit = 0xFFFF#16

/-- 40_crc.md R83: the residue property. -/
def Obligations.CrcResidueIsZero : Prop :=
  ∀ d : Bytes, crc16 (d ++ be16 (crc16 d)) = 0x0000#16

/-- 40_crc.md R84: no single-bit flip leaves the CRC. -/
def Obligations.CrcSeesEverySingleBit : Prop :=
  ∀ (d : Bytes) (i k : Nat), i < d.length → k < 8 → crc16 (flipBit d i k) ≠ crc16 d

open Polynomial in
/-- 40_crc.md section 1, the closed form of R80: the CRC is the remainder of
M(x)·x^16 + I(x)·x^(8|D|) by x^16 + x^12 + x^5 + 1 over GF(2). -/
def Obligations.CrcIsPolynomialRemainder : Prop :=
  ∀ d : Bytes, bitsPoly (crc16 d) =
    (bytesPoly d * X ^ 16 + bitsPoly 0xFFFF#16 * X ^ (8 * d.length)) %ₘ
      (X ^ 16 + X ^ 12 + X ^ 5 + 1)

/-- 40_crc.md R81: CRC16. -/
def Obligations.Crc16Completes : Prop :=
  hasWord .crc16 0x00000001#32 0xFFFFFFFF#32 ∧
  (∀ (s : State) (data : Bytes) (rest : List Command), issued s (.crc16 data) rest →
    exec .crc16 s = .next (answered s rest (.success (.crc (crc16 data))))) ∧
  crc16 [] = 0xFFFF#16 ∧
  crc16 [0x31#8, 0x32#8, 0x33#8, 0x34#8, 0x35#8, 0x36#8, 0x37#8, 0x38#8, 0x39#8] = 0x29B1#16

/-! ### Masks and lengths -/

/-- 41_primitives.md R90. -/
def Obligations.MaskKeepsLowBits : Prop :=
  ∀ (m n : Nat) (v : BitVec m), n ≤ m → (mask n v).toNat = v.toNat % 2 ^ n

/-- 41_primitives.md R96 and 20_memory.md R31: be16 and join16. -/
def Obligations.JoinInvertsBe16 : Prop :=
  ∀ v : BitVec 16, (be16 v).map BitVec.toNat = [v.toNat / 256, v.toNat % 256] ∧
    join16 (byteAt (be16 v) 0) (byteAt (be16 v) 1) = v

/-- 41_primitives.md R91, R92: the total lengths and their ranges. -/
def Obligations.TotalLengths : Prop :=
  (∀ p s : Nat, p ≤ 1024 → s ≤ 1 →
    tcTotalLen p s = 5 + s + p + 2 ∧ 7 ≤ tcTotalLen p s ∧ tcTotalLen p s ≤ 1032) ∧
  (∀ p : Nat, p ≤ 1024 → tmTotalLen p = 6 + p + 2 ∧ 8 ≤ tmTotalLen p ∧ tmTotalLen p ≤ 1032)

/-- 41_primitives.md R93, R94: the frame-length field is the total length minus one, modulo 1024. -/
def Obligations.FrameLengthFieldWraps : Prop :=
  (∀ p s : Nat, p ≤ 1024 → s ≤ 1 → (tcFlField p s).toNat = (p + s + 6) % 1024 ∧
    (tcTotalLen p s - 1 > 1023 ↔ p + s > 1017)) ∧
  tcFlField 1018 0 = 0#10 ∧ tcFlField 1024 1 = 7#10

/-- 41_primitives.md R98: the length identities. -/
def Obligations.LengthIdentities : Prop :=
  ∀ p s : Nat, p ≤ 1024 → s ≤ 1 →
    tcRxPayloadLen (tcTotalLen p s) s = p ∧ tmRxPayloadLen (tmTotalLen p) = p ∧
    ((tcFlField p s).toNat + 1 = tcTotalLen p s ↔ p + s ≤ 1017)

/-! ### TC commands -/

/-- 42_tc_codec.md R100, R102, R103: TC_CREATE returns the zeroed frame with its identifiers masked,
its payload, and the frame length it will have on the wire; it fails in exactly three cases. -/
def Obligations.TcCreateCommand : Prop :=
  hasWord .tcCreate 0x00000010#32 0xFFFFFFFF#32 ∧
  (∀ (s : State) (scid : BitVec 16) (vcid seq : BitVec 8) (p : Bytes) (rest : List Command),
    issued s (.tcCreate scid vcid seq (some p) true) rest → p.length ≤ 1024 →
    exec .tcCreate s = .next (answered s rest (.success (.tcFrame
      { version := 0b00#2, bypass := 0#1, cc := 0#1, reserved := 0b00#2,
        scid := BitVec.ofNat 10 (scid.toNat % 1024),
        vcid := BitVec.ofNat 6 (vcid.toNat % 64),
        frameLength := BitVec.ofNat 10 ((p.length + (if s.segHdr then 1 else 0) + 6) % 1024),
        seq := seq, segFlags := 0b00#2, mapId := 0#6, payload := p, fecf := 0x0000#16 })))) ∧
  (∀ (s : State) (scid : BitVec 16) (vcid seq : BitVec 8) (payload : Option Bytes) (fout : Bool)
    (rest : List Command), issued s (.tcCreate scid vcid seq payload fout) rest →
    ((fout = false ∨ payload = none ∨ ∃ p, payload = some p ∧ 1024 < p.length) ↔
      exec .tcCreate s = .next (answered s rest (.failure .invalidParameter none))))

/-- 42_tc_codec.md R110, R111: TC_SET_SEG writes the two segment-header fields, whatever the
control-command flag, and nothing else; without a frame it fails; with a frame too long (10_state.md
R15), and in a build without the feature (30_encoding.md R50), it is refused. Which reason a refusal
carries, and that the feature is looked at before the operand record's shape, is the model's choice
(DESIGN CHOICE, log entry 7). -/
def Obligations.TcSetSegWritesSegmentHeader : Prop :=
  hasWord .tcSetSeg 0x00000011#32 0xFFFFFFFF#32 ∧
  ∀ (s : State) (flags : BitVec 2) (map : BitVec 8) (rest : List Command),
    (∀ f : TcFrame, issued s (.tcSetSeg (some f) flags map) rest → s.segHdr = true →
      f.payload.length ≤ 1024 →
      exec .tcSetSeg s = .next (answered s rest (.success (.tcFrame
        { f with segFlags := flags, mapId := BitVec.ofNat 6 (map.toNat % 64) })))) ∧
    (issued s (.tcSetSeg none flags map) rest → s.segHdr = true →
      exec .tcSetSeg s = .next (answered s rest (.failure .invalidParameter none))) ∧
    (∀ f : TcFrame, issued s (.tcSetSeg (some f) flags map) rest → s.segHdr = true →
      1024 < f.payload.length → exec .tcSetSeg s = .refused .payloadTooLong) ∧
    (s.segHdr = false → exec .tcSetSeg s = .refused .segHdrNotPresent)

/-- 42_tc_codec.md R120, R121, R123, R124 and 30_encoding.md R55, R58: the bytes TC_ENCODE writes, LEN,
the untouched tail of the buffer; when it fails, with which status, and that DST' keeps its length
(its bytes are free). Three points are the model's: a frame too long is refused also when DST or the
length slot is absent (DEDUCED from 60_exceptions.md R190, log entry 6; R120 puts its comment after
the presence check); that refusal carries the reason `payloadTooLong` (DESIGN CHOICE, log entry 7);
and a block without the feature takes a frame with non-zero segment-header fields, which it does not
read (DEDUCED, log entry 9). -/
def Obligations.TcEncodeCommand : Prop :=
  hasWord .tcEncode 0x00000012#32 0xFFFFFFFF#32 ∧
  (∀ (s : State) (f : TcFrame) (d : Bytes) (rest : List Command),
    issued s (.tcEncode (some f) (some d) true) rest → f.payload.length ≤ 1024 →
    5 + segCount s.segHdr f.cc + f.payload.length + 2 ≤ d.length →
    let n := 5 + segCount s.segHdr f.cc + f.payload.length + 2
    let fl : BitVec 10 := BitVec.ofNat 10 ((n - 1) % 1024)
    let body : Bytes :=
      [f.version ++ f.bypass ++ f.cc ++ f.reserved ++ f.scid.extractLsb' 8 2,
       f.scid.extractLsb' 0 8, f.vcid ++ fl.extractLsb' 8 2, fl.extractLsb' 0 8, f.seq] ++
      (if s.segHdr = true ∧ f.cc = 0#1 then [f.segFlags ++ f.mapId] else []) ++ f.payload
    exec .tcEncode s = .next (answered s rest (.success (.encoded
      (body ++ [(crc16 body).extractLsb' 8 8, (crc16 body).extractLsb' 0 8] ++ d.drop n) n)))) ∧
  (∀ (s : State) (frame : Option TcFrame) (dst : Option Bytes) (lout : Bool) (rest : List Command),
    issued s (.tcEncode frame dst lout) rest → (∀ f, frame = some f → f.payload.length ≤ 1024) →
    ((frame = none ∨ dst = none ∨ lout = false) ↔
      failsWithDst s rest (exec .tcEncode s) .invalidParameter dst) ∧
    ((∃ f d, frame = some f ∧ dst = some d ∧ lout = true ∧
        d.length < tcTotalLen f.payload.length (tcSegPresent s.segHdr f.cc)) ↔
      failsWithDst s rest (exec .tcEncode s) .bufferTooSmall dst)) ∧
  (∀ (s : State) (f : TcFrame) (dst : Option Bytes) (lout : Bool) (rest : List Command),
    issued s (.tcEncode (some f) dst lout) rest → 1024 < f.payload.length →
    exec .tcEncode s = .refused .payloadTooLong)

/-- 42_tc_codec.md R130 to R135: the record TC_DECODE returns, each field from its bits on the wire,
and its failures in the order of its checks. It makes no other check. In a block without the feature
E = 1 is refused (30_encoding.md R47); that the refusal carries the reason `segHdrNotPresent`, and
comes before the operand record's shape is looked at, is the model's choice (DESIGN CHOICE, log
entry 7). -/
def Obligations.TcDecodeCommand : Prop :=
  (∀ w : CmdWord, (∃ e, decode w = .ok (.tcDecode e)) ↔ w &&& 0xFFFFFEFF#32 = 0x00000013#32) ∧
  (∀ (w : CmdWord) (e : Bool), decode w = .ok (.tcDecode e) → e = w.getLsbD 8) ∧
  (∀ s : State, s.segHdr = false → exec (.tcDecode true) s = .refused .segHdrNotPresent) ∧
  ∀ (s : State) (e : Bool) (src : Option Bytes) (fout : Bool) (rest : List Command),
    issued s (.decode src fout) rest → (e = true → s.segHdr = true) →
    let answers := fun r => exec (.tcDecode e) s = .next (answered s rest r)
    ((src = none ∨ fout = false) → answers (.failure .invalidParameter none)) ∧
    ∀ b, src = some b → fout = true →
      let at' := fun i => b.getD i 0#8
      let l := b.length
      let seg := e = true ∧ s.segHdr = true ∧ (at' 0).extractLsb' 4 1 = 0#1
      let n := if seg then 1 else 0
      let declared : BitVec 16 := at' (l - 2) ++ at' (l - 1)
      (l < 7 → answers (.failure .invalidParameter none)) ∧
      (7 ≤ l → seg → l < 8 → answers (.failure .invalidFrame none)) ∧
      (7 + n ≤ l → 1031 + n < l → answers (.failure .invalidFrame none)) ∧
      (7 + n ≤ l → l ≤ 1031 + n → crc16 (b.take (l - 2)) ≠ declared →
        answers (.failure .crcMismatch none)) ∧
      (7 + n ≤ l → l ≤ 1031 + n → crc16 (b.take (l - 2)) = declared →
        answers (.success (.tcFrame
          { version := (at' 0).extractLsb' 6 2, bypass := (at' 0).extractLsb' 5 1,
            cc := (at' 0).extractLsb' 4 1, reserved := (at' 0).extractLsb' 2 2,
            scid := (at' 0).extractLsb' 0 2 ++ at' 1, vcid := (at' 2).extractLsb' 2 6,
            frameLength := (at' 2).extractLsb' 0 2 ++ at' 3, seq := at' 4,
            segFlags := if seg then (at' 5).extractLsb' 6 2 else 0#2,
            mapId := if seg then (at' 5).extractLsb' 0 6 else 0#6,
            payload := (b.drop (5 + n)).take (l - 7 - n), fecf := declared })))

/-- 70_reset_and_hazards.md R205 and, when the decoding block is built without the feature, R206: a
frame encoded with a segment header and decoded with E = 0 returns Success with the segment-header
byte as the first payload byte. -/
def Obligations.UnexpectedSegmentHeaderBecomesPayload : Prop :=
  ∀ (s t : State) (f : TcFrame) (d d' : Bytes) (n : Nat) (rest : List Command),
    issued s (.tcEncode (some f) (some d) true) rest → s.segHdr = true → f.cc = 0#1 →
    f.payload.length ≤ 1023 → exec .tcEncode s = .next t →
    t.delivered = .success (.encoded d' n) :: s.delivered →
    ∀ (u : State) (rest' : List Command), issued u (.decode (some (d'.take n)) true) rest' →
      ∃ g : TcFrame, exec (.tcDecode false) u = .next (answered u rest' (.success (.tcFrame g))) ∧
        g.payload = (f.segFlags ++ f.mapId : BitVec 8) :: f.payload ∧
        g.segFlags = 0#2 ∧ g.mapId = 0#6

/-- 42_tc_codec.md R136: the round trip of a frame that TC_CREATE returns, with or without a
TC_SET_SEG, gives it back but for fecf. -/
def Obligations.TcRoundTripOfCreatedFrame : Prop :=
  ∀ (f : TcFrame) (s : State) (d : Bytes) (rest : List Command),
    (createdTc s.segHdr f ∨ createdAndSetTc s.segHdr f) →
    issued s (.tcEncode (some f) (some d) true) rest →
    tcTotalLen f.payload.length (tcSegPresent s.segHdr f.cc) ≤ d.length →
    ∃ (d' : Bytes) (n : Nat),
      exec .tcEncode s = .next (answered s rest (.success (.encoded d' n))) ∧
      ∀ (u : State) (rest' : List Command), u.segHdr = s.segHdr →
        issued u (.decode (some (d'.take n)) true) rest' →
        exec (.tcDecode s.segHdr) u = .next (answered u rest' (.success (.tcFrame
          { f with fecf := crc16 (d'.take (n - 2)) })))

/-- 42_tc_codec.md R136, last sentence: the round trip of every well-formed TC frame record gives it
back but for fecf, the frame length that the encoder recomputed, and the segment-header fields
when none is sent. R136 does not speak of a frame with non-zero segment-header fields on a block
without the feature; that such a block takes it, and does not read the two fields, is the model's
(DEDUCED, log entry 9). -/
def Obligations.TcRoundTripOfAnyFrame : Prop :=
  ∀ (f : TcFrame) (s : State) (d : Bytes) (rest : List Command), f.payload.length ≤ 1024 →
    issued s (.tcEncode (some f) (some d) true) rest →
    tcTotalLen f.payload.length (tcSegPresent s.segHdr f.cc) ≤ d.length →
    ∃ (d' : Bytes) (n : Nat),
      exec .tcEncode s = .next (answered s rest (.success (.encoded d' n))) ∧
      ∀ (u : State) (rest' : List Command), u.segHdr = s.segHdr →
        issued u (.decode (some (d'.take n)) true) rest' →
        exec (.tcDecode s.segHdr) u = .next (answered u rest' (.success (.tcFrame
          { f with
            frameLength := tcFlField f.payload.length (tcSegPresent s.segHdr f.cc)
            segFlags := if s.segHdr = true ∧ f.cc = 0#1 then f.segFlags else 0#2
            mapId := if s.segHdr = true ∧ f.cc = 0#1 then f.mapId else 0#6
            fecf := crc16 (d'.take (n - 2)) })))

/-- 42_tc_codec.md R137: a TC frame that decodes with Success, with one bit changed, gives
CrcMismatch; the only exceptions, both InvalidFrame, are the flips of the control-command bit that
make a segment header expected in a 7-byte frame or the payload 1025 bytes long. -/
def Obligations.TcCorruptionIsDetected : Prop :=
  ∀ (s u : State) (e : Bool) (x : Bytes) (f : TcFrame) (i k : Nat) (rest rest' : List Command),
    issued s (.decode (some x) true) rest →
    exec (.tcDecode e) s = .next (answered s rest (.success (.tcFrame f))) →
    i < x.length → k < 8 → u.segHdr = s.segHdr →
    issued u (.decode (some (flipBit x i k)) true) rest' →
    let reframed := i = 0 ∧ k = 4 ∧ e = true ∧ s.segHdr = true ∧
      ((f.cc = 1#1 ∧ x.length = 7) ∨ (f.cc = 0#1 ∧ x.length = 1032))
    exec (.tcDecode e) u = .next (answered u rest'
      (.failure (if reframed then .invalidFrame else .crcMismatch) none))

/-! ### TM commands -/

/-- 43_tm_codec.md R140, R141, R143: TM_CREATE returns the frame of the documented defaults with the
counter as its count, and advances the counter modulo 256; it fails in exactly three cases and then
leaves the counter; its frames' data-field-status word is 0x1800. -/
def Obligations.TmCreateCommand : Prop :=
  hasWord .tmCreate 0x00000020#32 0xFFFFFFFF#32 ∧
  (∀ (s : State) (scid : BitVec 16) (vcid : BitVec 8) (p : Bytes) (rest : List Command),
    issued s (.tmCreate scid vcid (some p) true) rest → p.length ≤ 1024 →
    exec .tmCreate s = .next { answered s rest (.success (.tmFrame
      { version := 0b00#2, scid := BitVec.ofNat 10 (scid.toNat % 1024),
        vcid := BitVec.ofNat 3 (vcid.toNat % 8), ocf := 0#1, mcfc := s.ctr, vcfc := 0#8,
        dfStatus := 0#1, sync := 0#1, pktOrder := 0#1, segLenId := 0b11#2, fhp := 0#11,
        payload := p, fecf := 0x0000#16 })) with
      ctr := BitVec.ofNat 8 ((s.ctr.toNat + 1) % 256) }) ∧
  (∀ (s : State) (scid : BitVec 16) (vcid : BitVec 8) (payload : Option Bytes) (fout : Bool)
    (rest : List Command), issued s (.tmCreate scid vcid payload fout) rest →
    ((fout = false ∨ payload = none ∨ ∃ p, payload = some p ∧ 1024 < p.length) ↔
      exec .tmCreate s = .next (answered s rest (.failure .invalidParameter none)))) ∧
  (∀ (s t : State) (f : TmFrame), exec .tmCreate s = .next t →
    t.delivered = .success (.tmFrame f) :: s.delivered → tmStatusWord f = 0x1800#16)

/-- 43_tm_codec.md R142: in a run without CNT_WRITE, the TM_CREATE commands that succeed return the
counts N, N+1, N+2, ... modulo 256. -/
def Obligations.SuccessiveCreatesCountUp : Prop :=
  ∀ (s t : State) (k : Nat) (c : Command), core.run k s = .next t → s.pending[k]? = some c →
    (∀ c' ∈ s.pending.take k, c'.isCntWrite = false) → c.takesCount = true →
    ∃ (u : State) (f : TmFrame), step t = .next u ∧
      u.delivered = .success (.tmFrame f) :: t.delivered ∧
      f.mcfc.toNat = (s.ctr.toNat + (s.pending.take k).countP Command.takesCount) % 256

/-- 44_counter.md R174: two successful TM_CREATE commands return different counts unless 256
creations or a CNT_WRITE come between them. -/
def Obligations.NoTwoCreatesShareACount : Prop :=
  ∀ (s t : State) (c d : Command) (mid rest : List Command),
    s.pending = c :: mid ++ d :: rest → c.takesCount = true → d.takesCount = true →
    (∀ c' ∈ mid, c'.isCntWrite = false) → mid.countP Command.takesCount < 255 →
    core.run (mid.length + 2) s = .next t →
    ∃ (f g : TmFrame) (rs : List ResultRecord),
      t.delivered = .success (.tmFrame g) :: rs ++ .success (.tmFrame f) :: s.delivered ∧
      rs.length = mid.length ∧ g.mcfc ≠ f.mcfc

/-- 43_tm_codec.md R150 to R153 and 30_encoding.md R59: the bytes TM_ENCODE writes, LEN, the untouched
tail of the buffer; when it fails, with which status, and that DST' keeps its length (its bytes are
free). The counter stays. Two points are the model's: a frame too long is refused also when DST or
the length slot is absent (DEDUCED from 60_exceptions.md R190, log entry 6; the pseudocode of R150
puts the presence check first), and that refusal carries the reason `payloadTooLong` (DESIGN CHOICE,
log entry 7). -/
def Obligations.TmEncodeCommand : Prop :=
  hasWord .tmEncode 0x00000021#32 0xFFFFFFFF#32 ∧
  (∀ (s : State) (f : TmFrame) (d : Bytes) (rest : List Command),
    issued s (.tmEncode (some f) (some d) true) rest → f.payload.length ≤ 1024 →
    6 + f.payload.length + 2 ≤ d.length →
    let n := 6 + f.payload.length + 2
    let body : Bytes :=
      [f.version ++ f.scid.extractLsb' 4 6, f.scid.extractLsb' 0 4 ++ f.vcid ++ f.ocf, f.mcfc,
       f.vcfc, f.dfStatus ++ f.sync ++ f.pktOrder ++ f.segLenId ++ f.fhp.extractLsb' 8 3,
       f.fhp.extractLsb' 0 8] ++ f.payload
    exec .tmEncode s = .next (answered s rest (.success (.encoded
      (body ++ [(crc16 body).extractLsb' 8 8, (crc16 body).extractLsb' 0 8] ++ d.drop n) n)))) ∧
  (∀ (s : State) (frame : Option TmFrame) (dst : Option Bytes) (lout : Bool) (rest : List Command),
    issued s (.tmEncode frame dst lout) rest → (∀ f, frame = some f → f.payload.length ≤ 1024) →
    ((frame = none ∨ dst = none ∨ lout = false) ↔
      failsWithDst s rest (exec .tmEncode s) .invalidParameter dst) ∧
    ((∃ f d, frame = some f ∧ dst = some d ∧ lout = true ∧
        d.length < tmTotalLen f.payload.length) ↔
      failsWithDst s rest (exec .tmEncode s) .bufferTooSmall dst)) ∧
  (∀ (s : State) (f : TmFrame) (dst : Option Bytes) (lout : Bool) (rest : List Command),
    issued s (.tmEncode (some f) dst lout) rest → 1024 < f.payload.length →
    exec .tmEncode s = .refused .payloadTooLong)

/-- 43_tm_codec.md R160 to R164: the record TM_DECODE returns, each field from its bits on the wire,
and its failures in the order of its checks. It makes no other check. -/
def Obligations.TmDecodeCommand : Prop :=
  hasWord .tmDecode 0x00000022#32 0xFFFFFFFF#32 ∧
  ∀ (s : State) (src : Option Bytes) (fout : Bool) (rest : List Command),
    issued s (.decode src fout) rest →
    let answers := fun r => exec .tmDecode s = .next (answered s rest r)
    ((src = none ∨ fout = false) → answers (.failure .invalidParameter none)) ∧
    ∀ b, src = some b → fout = true →
      let at' := fun i => b.getD i 0#8
      let l := b.length
      let declared : BitVec 16 := at' (l - 2) ++ at' (l - 1)
      (l < 8 → answers (.failure .invalidParameter none)) ∧
      (1032 < l → answers (.failure .invalidFrame none)) ∧
      (8 ≤ l → l ≤ 1032 → crc16 (b.take (l - 2)) ≠ declared →
        answers (.failure .crcMismatch none)) ∧
      (8 ≤ l → l ≤ 1032 → crc16 (b.take (l - 2)) = declared →
        answers (.success (.tmFrame
          { version := (at' 0).extractLsb' 6 2,
            scid := (at' 0).extractLsb' 0 6 ++ (at' 1).extractLsb' 4 4,
            vcid := (at' 1).extractLsb' 1 3, ocf := (at' 1).extractLsb' 0 1, mcfc := at' 2,
            vcfc := at' 3, dfStatus := (at' 4).extractLsb' 7 1, sync := (at' 4).extractLsb' 6 1,
            pktOrder := (at' 4).extractLsb' 5 1, segLenId := (at' 4).extractLsb' 3 2,
            fhp := (at' 4).extractLsb' 0 3 ++ at' 5, payload := (b.drop 6).take (l - 8),
            fecf := declared })))

/-- 43_tm_codec.md R165: the round trip of every well-formed TM frame record, those of TM_CREATE
among them, gives it back but for fecf. -/
def Obligations.TmRoundTrip : Prop :=
  ∀ (f : TmFrame) (s : State) (d : Bytes) (rest : List Command), f.payload.length ≤ 1024 →
    issued s (.tmEncode (some f) (some d) true) rest →
    tmTotalLen f.payload.length ≤ d.length →
    ∃ (d' : Bytes) (n : Nat),
      exec .tmEncode s = .next (answered s rest (.success (.encoded d' n))) ∧
      ∀ (u : State) (rest' : List Command), issued u (.decode (some (d'.take n)) true) rest' →
        exec .tmDecode u = .next (answered u rest' (.success (.tmFrame
          { f with fecf := crc16 (d'.take (n - 2)) })))

/-- 43_tm_codec.md R166: a TM frame that decodes with Success, with one bit changed, gives
CrcMismatch. -/
def Obligations.TmCorruptionIsDetected : Prop :=
  ∀ (s u : State) (x : Bytes) (f : TmFrame) (i k : Nat) (rest rest' : List Command),
    issued s (.decode (some x) true) rest →
    exec .tmDecode s = .next (answered s rest (.success (.tmFrame f))) →
    i < x.length → k < 8 → issued u (.decode (some (flipBit x i k)) true) rest' →
    exec .tmDecode u = .next (answered u rest' (.failure .crcMismatch none))

/-! ### Counter commands -/

/-- 44_counter.md R170: CNT_READ delivers the counter, 0x00 right after reset, and it is the count the
next successful TM_CREATE uses. -/
def Obligations.CntReadDeliversCounter : Prop :=
  hasWord .cntRead 0x00000030#32 0xFFFFFFFF#32 ∧
  (∀ (s : State) (rest : List Command), issued s .cntRead rest →
    exec .cntRead s = .next (answered s rest (.success (.value s.ctr)))) ∧
  State.reset.ctr = 0x00#8 ∧
  (∀ (s t u : State) (v : BitVec 8) (f : TmFrame), exec .cntRead s = .next t →
    t.delivered = .success (.value v) :: s.delivered → exec .tmCreate t = .next u →
    u.delivered = .success (.tmFrame f) :: t.delivered → f.mcfc = v)

/-- 44_counter.md R172: CNT_WRITE loads the counter; every value is legal. -/
def Obligations.CntWriteLoadsCounter : Prop :=
  hasWord .cntWrite 0x00000031#32 0xFFFFFFFF#32 ∧
  (∀ (s : State) (v : BitVec 8) (rest : List Command), issued s (.cntWrite v) rest →
    exec .cntWrite s = .next { answered s rest (.success .none) with ctr := v }) ∧
  (∀ (s t : State) (rest : List Command), issued s (.cntWrite 0x00#8) rest →
    exec .cntWrite s = .next t → t.ctr = State.reset.ctr)
end

