-- ==== Sys2Proof/Laws/Crc.lean ====
section
/-! SUPPORT. The CRC register as a linear map over GF(2): every shift is linear and loses nothing, so
two registers that differ stay different (40_crc.md R83, R84 rest on this). -/

namespace Sys2Proof.Machine

@[simp] theorem crcOut_eq (c : BitVec 16) : crcOut c = c := by
  simp [crcOut, Config.crcRefOut, Config.crcXorOut]

@[simp] theorem crcInByte_eq (b : Byte) : crcInByte b = b := by
  simp [crcInByte, Config.crcRefIn]

theorem crcByte_eq (c : BitVec 16) (b : Byte) : crcByte c b = crcShifts 8 (c ^^^ (b ++ 0#8)) := by
  simp [crcByte]

theorem crc16_eq_foldl (d : Bytes) : crc16 d = d.foldl crcByte 0xFFFF#16 := by
  simp [crc16, Config.crcInit]

theorem crc16_append (d e : Bytes) : crc16 (d ++ e) = e.foldl crcByte (crc16 d) := by
  simp [crc16_eq_foldl]

theorem crcShift_xor (a b : BitVec 16) : crcShift (a ^^^ b) = crcShift a ^^^ crcShift b := by
  unfold crcShift
  rw [BitVec.shiftLeft_xor_distrib, BitVec.getLsbD_xor]
  have hp : a <<< 1 ^^^ Config.crcPoly ^^^ (b <<< 1 ^^^ Config.crcPoly) =
      a <<< 1 ^^^ b <<< 1 ^^^ (Config.crcPoly ^^^ Config.crcPoly) := by ac_rfl
  cases a.getLsbD 15 <;> cases b.getLsbD 15 <;> simp [hp] <;> ac_rfl

theorem crcShift_eq_zero {c : BitVec 16} (h : crcShift c = 0#16) : c = 0#16 := by
  revert h
  unfold crcShift Config.crcPoly
  split
  · intro h
    have := congrArg (fun v : BitVec 16 => v.getLsbD 0) h
    simp at this
  · intro h
    ext i hi
    have := congrArg (fun v : BitVec 16 => v.getLsbD (i + 1)) h
    by_cases h15 : i = 15
    · subst h15; simp_all [BitVec.getLsbD_eq_getElem]
    · simpa [BitVec.getLsbD_eq_getElem, show i + 1 < 16 by omega] using this

theorem crcShifts_xor (k : Nat) (a b : BitVec 16) :
    crcShifts k (a ^^^ b) = crcShifts k a ^^^ crcShifts k b := by
  induction k generalizing a b with
  | zero => rfl
  | succ k ih => simp [crcShifts, crcShift_xor, ih]

theorem crcShifts_eq_zero {k : Nat} {c : BitVec 16} (h : crcShifts k c = 0#16) : c = 0#16 := by
  induction k generalizing c with
  | zero => exact h
  | succ k ih => exact crcShift_eq_zero (ih h)

theorem crcShifts_injective (k : Nat) {a b : BitVec 16} (h : crcShifts k a = crcShifts k b) :
    a = b := by
  rw [← BitVec.xor_eq_zero_iff] at h ⊢
  exact crcShifts_eq_zero (crcShifts_xor k a b ▸ h)

/-- Two registers that differ differ after any byte. -/
theorem crcByte_injective {a b : BitVec 16} {x : Byte} (h : crcByte a x = crcByte b x) : a = b := by
  rw [crcByte_eq, crcByte_eq] at h
  exact (BitVec.xor_left_inj _).mp (crcShifts_injective 8 h)

/-- Two bytes that differ leave one register different. -/
theorem crcByte_injective_byte {c : BitVec 16} {x y : Byte} (h : crcByte c x = crcByte c y) :
    x = y := by
  rw [crcByte_eq, crcByte_eq] at h
  have := (BitVec.xor_right_inj _).mp (crcShifts_injective 8 h)
  have hn := congrArg BitVec.toNat this
  simp only [BitVec.toNat_append, BitVec.toNat_ofNat, Nat.zero_mod, Nat.or_zero,
    Nat.shiftLeft_eq] at hn
  exact BitVec.eq_of_toNat_eq (by omega)

theorem foldl_crcByte_injective (d : Bytes) {a b : BitVec 16}
    (h : d.foldl crcByte a = d.foldl crcByte b) : a = b := by
  induction d generalizing a b with
  | nil => exact h
  | cons x d ih => exact crcByte_injective (ih h)

/-- Changing one byte changes the CRC. -/
theorem crc16_ne_of_byte_ne (d e : Bytes) {x y : Byte} (h : x ≠ y) :
    crc16 (d ++ x :: e) ≠ crc16 (d ++ y :: e) := by
  rw [crc16_append, crc16_append]
  intro heq
  exact h (crcByte_injective_byte (foldl_crcByte_injective e heq))

/-- A byte in the low half comes up into the high half in eight shifts: nothing is carried out. -/
theorem crcShifts_low_byte : ∀ b : Byte, crcShifts 8 (0#8 ++ b : BitVec 16) = (b ++ 0#8 : BitVec 16) := by
  decide

end Sys2Proof.Machine
end

