-- ==== Sys2Proof/Laws/Decode.lean ====
section
/-! SUPPORT. The command word's fields determine it, and what the decoder answers is said once. -/

namespace Sys2Proof

theorem toNat_append_add {m n : Nat} (x : BitVec m) (y : BitVec n) :
    (x ++ y).toNat = x.toNat * 2 ^ n + y.toNat := by
  rw [BitVec.toNat_append, Nat.shiftLeft_eq, Nat.mul_comm, ← Nat.two_pow_add_eq_or_of_lt y.isLt]

/-- A word is its three fields (30_encoding.md R45). -/
theorem word_eq_fields (w : CmdWord) : w = resOf w ++ BitVec.ofBool (eOf w) ++ opcOf w := by
  have he : BitVec.ofBool (eOf w) = w.extractLsb' 8 1 := by
    ext i hi
    simp [eOf, show i = 0 by omega]
  rw [he]
  apply BitVec.eq_of_toNat_eq
  simp only [resOf, opcOf, toNat_append_add, BitVec.extractLsb'_toNat, Nat.shiftRight_eq_div_pow]
  omega

@[simp] theorem opcOf_encode (i : Instr) : opcOf i.encode = i.opc := by
  rcases i with _ | _ | _ | _ | (_ | _) | _ | _ | _ | _ | _ <;> decide

@[simp] theorem resOf_encode (i : Instr) : resOf i.encode = 0#23 := by
  rcases i with _ | _ | _ | _ | (_ | _) | _ | _ | _ | _ | _ <;> decide

@[simp] theorem ofBool_eOf_encode (i : Instr) : BitVec.ofBool (eOf i.encode) = i.eBit := by
  rcases i with _ | _ | _ | _ | (_ | _) | _ | _ | _ | _ | _ <;> decide

/-- What the opcode map gives: the opcode and the flag of the command it answers. -/
theorem decodeOpc_ok {opc : BitVec 8} {e : Bool} {i : Instr} (h : decodeOpc opc e = .ok i) :
    i.opc = opc ∧ i.eBit = BitVec.ofBool e := by
  unfold decodeOpc plainCommand at h
  cases e <;> simp only [Bool.false_eq_true, if_false, if_true] at h <;>
    (repeat' split at h) <;> cases h
  all_goals subst_vars; exact ⟨rfl, rfl⟩

/-- What the decoder gives: RES is 0, and OPC and E are the command's. -/
theorem decode_ok {w : CmdWord} {i : Instr} (h : decode w = .ok i) :
    resOf w = 0#23 ∧ opcOf w = i.opc ∧ BitVec.ofBool (eOf w) = i.eBit := by
  unfold decode at h
  split at h
  · have := decodeOpc_ok h
    exact ⟨‹_›, this.1.symm, this.2.symm⟩
  · cases h

end Sys2Proof
end

