-- ==== Sys2Proof/Laws/State.lean ====
section
/-! SUPPORT. One lemma per field per update of State: what completing a command changes and what it
leaves. -/

namespace Sys2Proof.Machine

variable (s : State) (r : ResultRecord) (res : Results) (why : Failure)

@[simp] theorem State.deliver_ctr : (s.deliver r).ctr = s.ctr := rfl
@[simp] theorem State.deliver_segHdr : (s.deliver r).segHdr = s.segHdr := rfl
@[simp] theorem State.deliver_pending : (s.deliver r).pending = s.pending.tail := rfl
@[simp] theorem State.deliver_delivered : (s.deliver r).delivered = r :: s.delivered := rfl
@[simp] theorem State.deliver_draws : (s.deliver r).draws = s.draws := rfl

@[simp] theorem State.succeed_ctr : (s.succeed res).ctr = s.ctr := rfl
@[simp] theorem State.succeed_segHdr : (s.succeed res).segHdr = s.segHdr := rfl
@[simp] theorem State.succeed_pending : (s.succeed res).pending = s.pending.tail := rfl
@[simp] theorem State.succeed_delivered :
    (s.succeed res).delivered = .success res :: s.delivered := rfl
@[simp] theorem State.succeed_draws : (s.succeed res).draws = s.draws := rfl

@[simp] theorem State.fail_ctr : (s.fail why).ctr = s.ctr := rfl
@[simp] theorem State.fail_segHdr : (s.fail why).segHdr = s.segHdr := rfl
@[simp] theorem State.fail_pending : (s.fail why).pending = s.pending.tail := rfl
@[simp] theorem State.fail_delivered :
    (s.fail why).delivered = .failure why none :: s.delivered := rfl
@[simp] theorem State.fail_draws : (s.fail why).draws = s.draws := rfl

/-- The result record of a command that computed `x`. -/
def recordOf : Except Failure Results → ResultRecord
  | .ok r => .success r
  | .error why => .failure why none

/-- A command without a DST operand delivers its record and changes nothing else. -/
theorem State.conclude_eq (x : Except Failure Results) : s.conclude x = s.deliver (recordOf x) := by
  cases x <;> rfl

@[simp] theorem State.conclude_ok : s.conclude (.ok res) = s.succeed res := rfl
@[simp] theorem State.conclude_error : s.conclude (.error why) = s.fail why := rfl

variable (dst : Option Bytes) (x : Except Failure (Bytes × Nat))

@[simp] theorem State.concludeEncode_ctr : (s.concludeEncode dst x).ctr = s.ctr := by
  rcases x with _ | ⟨_, _⟩ <;> cases dst <;> rfl
@[simp] theorem State.concludeEncode_segHdr : (s.concludeEncode dst x).segHdr = s.segHdr := by
  rcases x with _ | ⟨_, _⟩ <;> cases dst <;> rfl
@[simp] theorem State.concludeEncode_pending :
    (s.concludeEncode dst x).pending = s.pending.tail := by
  rcases x with _ | ⟨_, _⟩ <;> cases dst <;> rfl
@[simp] theorem State.concludeEncode_ok (d : Bytes) (n : Nat) :
    s.concludeEncode dst (.ok (d, n)) = s.succeed (.encoded d n) := rfl

@[simp] theorem drawBytes_length (k n : Nat) : (drawBytes k n).length = n := by simp [drawBytes]

/-- Everything an encode command that fails can deliver: the failure, and a DST' of DST's length. -/
theorem State.concludeEncode_error : ∃ dst' : Option Bytes,
    (s.concludeEncode dst (.error why)).delivered = .failure why dst' :: s.delivered ∧
    dst'.map List.length = dst.map List.length := by
  cases dst with
  | none => exact ⟨none, rfl, rfl⟩
  | some d => exact ⟨some (drawBytes s.draws d.length), rfl, by simp⟩

theorem State.operands_of_pending {w : CmdWord} {ops : Operands} {rest : List Command}
    (h : s.pending = ⟨w, ops⟩ :: rest) : s.operands = some ops := by
  simp [State.operands, h]

/-! ### Well-formed frame operands -/

theorem tcFrame_wf_iff (f : TcFrame) : f.wf = true ↔ f.payload.length ≤ 1024 :=
  decide_eq_true_iff

theorem tmFrame_wf_iff (f : TmFrame) : f.wf = true ↔ f.payload.length ≤ 1024 :=
  decide_eq_true_iff

@[simp] theorem tcOperandTooLong_none : tcOperandTooLong none = false := rfl
@[simp] theorem tmOperandTooLong_none : tmOperandTooLong none = false := rfl

@[simp] theorem tcOperandTooLong_some (f : TcFrame) :
    tcOperandTooLong (some f) = false ↔ f.payload.length ≤ 1024 := by
  rw [← tcFrame_wf_iff]; simp [tcOperandTooLong]

@[simp] theorem tmOperandTooLong_some (f : TmFrame) :
    tmOperandTooLong (some f) = false ↔ f.payload.length ≤ 1024 := by
  rw [← tmFrame_wf_iff]; simp [tmOperandTooLong]

end Sys2Proof.Machine
end

