-- ==== Sys2Proof/Laws/Exec.lean ====
section
/-! SUPPORT. Each command's meaning said once: what it answers when its operand record is known, and
from a next state back to the operand record it ran on. -/

namespace Sys2Proof.Machine

variable {s t : State}

/-! ### From an operand record to the answer -/

theorem execCrc16_of_operands {data : Bytes} (h : s.operands = some (.crc16 data)) :
    execCrc16 s = .next (s.succeed (.crc (crc16 data))) := by
  simp [execCrc16, h]

theorem execTcCreate_of_operands {scid : BitVec 16} {vcid seq : BitVec 8} {p : Option Bytes}
    {fout : Bool} (h : s.operands = some (.tcCreate scid vcid seq p fout)) :
    execTcCreate s =
      .next (s.conclude ((tcCreate s.segHdr scid vcid seq p fout).map .tcFrame)) := by
  simp [execTcCreate, h]

theorem execTcSetSeg_of_operands {frame : Option TcFrame} {flags : BitVec 2} {map : BitVec 8}
    (h : s.operands = some (.tcSetSeg frame flags map)) (hseg : s.segHdr = true)
    (hw : tcOperandTooLong frame = false) :
    execTcSetSeg s = .next (s.conclude ((tcSetSeg frame flags map).map .tcFrame)) := by
  simp [execTcSetSeg, h, hseg, hw]

theorem execTcEncode_of_operands {frame : Option TcFrame} {dst : Option Bytes} {lout : Bool}
    (h : s.operands = some (.tcEncode frame dst lout)) (hw : tcOperandTooLong frame = false) :
    execTcEncode s = .next (s.concludeEncode dst (tcEncode s.segHdr frame dst lout)) := by
  simp [execTcEncode, h, hw]

theorem execTcDecode_of_operands {e : Bool} {src : Option Bytes} {fout : Bool}
    (h : s.operands = some (.decode src fout)) (he : e = true → s.segHdr = true) :
    execTcDecode e s = .next (s.conclude ((tcDecode s.segHdr e src fout).map .tcFrame)) := by
  cases e <;> simp_all [execTcDecode]

theorem execTmCreate_of_operands {scid : BitVec 16} {vcid : BitVec 8} {p : Option Bytes}
    {fout : Bool} (h : s.operands = some (.tmCreate scid vcid p fout)) :
    execTmCreate s = match tmCreate s.ctr scid vcid p fout with
      | .ok f => .next ({ s with ctr := s.ctr + 1#8 }.succeed (.tmFrame f))
      | .error why => .next (s.fail why) := by
  cases hx : tmCreate s.ctr scid vcid p fout <;> simp [execTmCreate, h, hx]

theorem execTmEncode_of_operands {frame : Option TmFrame} {dst : Option Bytes} {lout : Bool}
    (h : s.operands = some (.tmEncode frame dst lout)) (hw : tmOperandTooLong frame = false) :
    execTmEncode s = .next (s.concludeEncode dst (tmEncode frame dst lout)) := by
  simp [execTmEncode, h, hw]

theorem execTmDecode_of_operands {src : Option Bytes} {fout : Bool}
    (h : s.operands = some (.decode src fout)) :
    execTmDecode s = .next (s.conclude ((tmDecode src fout).map .tmFrame)) := by
  simp [execTmDecode, h]

theorem execCntRead_of_operands (h : s.operands = some .cntRead) :
    execCntRead s = .next (s.succeed (.value s.ctr)) := by
  simp [execCntRead, h]

theorem execCntWrite_of_operands {v : BitVec 8} (h : s.operands = some (.cntWrite v)) :
    execCntWrite s = .next ({ s with ctr := v }.succeed .none) := by
  simp [execCntWrite, h]

/-! ### From a next state back -/

theorem execCrc16_next (h : execCrc16 s = .next t) : ∃ data,
    s.operands = some (.crc16 data) ∧ t = s.succeed (.crc (crc16 data)) := by
  unfold execCrc16 at h
  split at h
  · exact ⟨_, ‹_›, by simpa using h.symm⟩
  · cases h

theorem execTcCreate_next (h : execTcCreate s = .next t) : ∃ scid vcid seq p fout,
    s.operands = some (.tcCreate scid vcid seq p fout) ∧
    t = s.conclude ((tcCreate s.segHdr scid vcid seq p fout).map .tcFrame) := by
  unfold execTcCreate at h
  split at h
  · exact ⟨_, _, _, _, _, ‹_›, by simpa using h.symm⟩
  · cases h

theorem execTcSetSeg_next (h : execTcSetSeg s = .next t) : ∃ frame flags map,
    s.operands = some (.tcSetSeg frame flags map) ∧ s.segHdr = true ∧
    tcOperandTooLong frame = false ∧
    t = s.conclude ((tcSetSeg frame flags map).map .tcFrame) := by
  unfold execTcSetSeg at h
  split at h
  · split at h
    · split at h
      · cases h
      · exact ⟨_, _, _, ‹_›, ‹_›, eq_false_of_ne_true ‹_›, by simpa using h.symm⟩
    · cases h
  · cases h

theorem execTcEncode_next (h : execTcEncode s = .next t) : ∃ frame dst lout,
    s.operands = some (.tcEncode frame dst lout) ∧ tcOperandTooLong frame = false ∧
    t = s.concludeEncode dst (tcEncode s.segHdr frame dst lout) := by
  unfold execTcEncode at h
  split at h
  · split at h
    · cases h
    · exact ⟨_, _, _, ‹_›, eq_false_of_ne_true ‹_›, by simpa using h.symm⟩
  · cases h

theorem execTcDecode_next {e : Bool} (h : execTcDecode e s = .next t) : ∃ src fout,
    s.operands = some (.decode src fout) ∧ (e = true → s.segHdr = true) ∧
    t = s.conclude ((tcDecode s.segHdr e src fout).map .tcFrame) := by
  unfold execTcDecode at h
  split at h
  · cases h
  · split at h
    · rename_i he _ _ _ _
      exact ⟨_, _, ‹_›, by simpa using he, by simpa using h.symm⟩
    · cases h

theorem execTmCreate_next (h : execTmCreate s = .next t) : ∃ scid vcid p fout,
    s.operands = some (.tmCreate scid vcid p fout) ∧
    ((∃ f, tmCreate s.ctr scid vcid p fout = .ok f ∧
        t = { s with ctr := s.ctr + 1#8 }.succeed (.tmFrame f)) ∨
      (∃ why, tmCreate s.ctr scid vcid p fout = .error why ∧ t = s.fail why)) := by
  unfold execTmCreate at h
  split at h
  · refine ⟨_, _, _, _, ‹_›, ?_⟩
    split at h
    · exact .inl ⟨_, ‹_›, by simpa using h.symm⟩
    · exact .inr ⟨_, ‹_›, by simpa using h.symm⟩
  · cases h

theorem execTmEncode_next (h : execTmEncode s = .next t) : ∃ frame dst lout,
    s.operands = some (.tmEncode frame dst lout) ∧ tmOperandTooLong frame = false ∧
    t = s.concludeEncode dst (tmEncode frame dst lout) := by
  unfold execTmEncode at h
  split at h
  · split at h
    · cases h
    · exact ⟨_, _, _, ‹_›, eq_false_of_ne_true ‹_›, by simpa using h.symm⟩
  · cases h

theorem execTmDecode_next (h : execTmDecode s = .next t) : ∃ src fout,
    s.operands = some (.decode src fout) ∧ t = s.conclude ((tmDecode src fout).map .tmFrame) := by
  unfold execTmDecode at h
  split at h
  · exact ⟨_, _, ‹_›, by simpa using h.symm⟩
  · cases h

theorem execCntRead_next (h : execCntRead s = .next t) :
    s.operands = some .cntRead ∧ t = s.succeed (.value s.ctr) := by
  unfold execCntRead at h
  split at h
  · exact ⟨‹_›, by simpa using h.symm⟩
  · cases h

theorem execCntWrite_next (h : execCntWrite s = .next t) : ∃ v,
    s.operands = some (.cntWrite v) ∧ t = { s with ctr := v }.succeed .none := by
  unfold execCntWrite at h
  split at h
  · exact ⟨_, ‹_›, by simpa using h.symm⟩
  · cases h

/-! ### The step -/

/-- With a command issued, a step is the execution of the decoded command. -/
theorem step_of_decode {c : Command} {rest : List Command} {i : Instr}
    (h : s.pending = c :: rest) (hd : decode c.word = .ok i) : step s = exec i s := by
  simp [step, fetch, h, hd]

/-- A step that answers a next state is the wait with no command issued, or the execution of the
command that the first issued word decodes to. -/
theorem step_next (h : step s = .next t) : (s.pending = [] ∧ t = s) ∨
    ∃ c rest i, s.pending = c :: rest ∧ decode c.word = .ok i ∧ exec i s = .next t := by
  unfold step fetch at h
  cases hp : s.pending with
  | nil => exact .inl ⟨rfl, by simpa [hp, idle] using h.symm⟩
  | cons c rest =>
    refine .inr ⟨c, rest, ?_⟩
    cases hd : decode c.word with
    | error why => simp [hp, hd] at h
    | ok i => exact ⟨i, rfl, rfl, by simpa [hp, hd] using h⟩

end Sys2Proof.Machine
end

