-- ==== Sys2Proof/Laws/PerInstr.lean ====
section
/-! SUPPORT. The per-command families of LAWS.json. `EncodeDecode`: the decoder reads back what the
encoder writes (30_encoding.md R45, R46). -/

namespace Sys2Proof.Laws.EncodeDecode

/-- The command's word decodes to the command. -/
def Statement (i : Instr) : Prop := decode i.encode = .ok i

theorem crc16 : Statement .crc16 := rfl
theorem tcCreate : Statement .tcCreate := rfl
theorem tcSetSeg : Statement .tcSetSeg := rfl
theorem tcEncode : Statement .tcEncode := rfl
theorem tcDecode (e : Bool) : Statement (.tcDecode e) := by cases e <;> rfl
theorem tmCreate : Statement .tmCreate := rfl
theorem tmEncode : Statement .tmEncode := rfl
theorem tmDecode : Statement .tmDecode := rfl
theorem cntRead : Statement .cntRead := rfl
theorem cntWrite : Statement .cntWrite := rfl

end Sys2Proof.Laws.EncodeDecode
end

