-- ==== Sys2Proof/Laws/Wire.lean ====
section
/-! SUPPORT. The wire formats: a header's bytes are those of 30_encoding.md R57 and R61, reading the
bytes back gives the header, and parsing a header gives its fields. -/

namespace Sys2Proof.Machine

/-! ### be16 and join16 -/

theorem join16_be16 (v : BitVec 16) : join16 (v.extractLsb' 8 8) (v.extractLsb' 0 8) = v := by
  apply BitVec.eq_of_toNat_eq
  simp only [join16, toNat_append_add, BitVec.extractLsb'_toNat, Nat.shiftRight_eq_div_pow]
  omega

@[simp] theorem be16_length (v : BitVec 16) : (be16 v).length = 2 := rfl

/-- The FECF of a frame that ends in a `be16` is that value. -/
theorem declaredFecf_append_be16 (b : Bytes) (v : BitVec 16) : declaredFecf (b ++ be16 v) = v := by
  simp [declaredFecf, byteAt, be16, join16_be16]

/-- The CRC a decoder recomputes over a frame that ends in two FECF bytes. -/
theorem receivedCrc_append_be16 (b : Bytes) (v : BitVec 16) :
    receivedCrc (b ++ be16 v) = crc16 b := by
  simp [receivedCrc, memRead, Config.fecfLen]

/-! ### The TC header -/

theorem tcHeaderBytes_tcHeader (f : TcFrame) (fl : BitVec 10) :
    tcHeaderBytes (tcHeader f fl) =
      [f.version ++ f.bypass ++ f.cc ++ f.reserved ++ f.scid.extractLsb' 8 2,
       f.scid.extractLsb' 0 8, f.vcid ++ fl.extractLsb' 8 2, fl.extractLsb' 0 8, f.seq] := by
  simp only [tcHeaderBytes, tcHeader, List.cons.injEq, and_true]
  refine ⟨?_, ?_, ?_, ?_, ?_⟩ <;> apply BitVec.eq_of_toNat_eq <;>
    simp only [toNat_append_add, BitVec.extractLsb'_toNat, Nat.shiftRight_eq_div_pow] <;> omega

theorem tcReceivedHeader_tcHeaderBytes (h : BitVec 40) (t : Bytes) :
    tcReceivedHeader (tcHeaderBytes h ++ t) = h := by
  simp only [tcReceivedHeader, tcHeaderBytes, byteAt, List.cons_append, List.getD_cons_zero,
    List.getD_cons_succ]
  apply BitVec.eq_of_toNat_eq
  simp only [toNat_append_add, BitVec.extractLsb'_toNat, Nat.shiftRight_eq_div_pow]
  omega

theorem tcParseHeader_tcHeader (f : TcFrame) (fl : BitVec 10) :
    tcParseHeader (tcHeader f fl) =
      { zeroTcFrame with
        version := f.version, bypass := f.bypass, cc := f.cc, reserved := f.reserved,
        scid := f.scid, vcid := f.vcid, frameLength := fl, seq := f.seq } := by
  simp only [tcParseHeader, tcHeader]
  congr 1 <;> apply BitVec.eq_of_toNat_eq <;>
    simp only [toNat_append_add, BitVec.extractLsb'_toNat, Nat.shiftRight_eq_div_pow] <;> omega

/-- The fields of a received TC header, each from its bits on the wire. -/
theorem tcParseHeader_tcReceivedHeader (b : Bytes) :
    tcParseHeader (tcReceivedHeader b) =
      { zeroTcFrame with
        version := (byteAt b 0).extractLsb' 6 2, bypass := (byteAt b 0).extractLsb' 5 1,
        cc := (byteAt b 0).extractLsb' 4 1, reserved := (byteAt b 0).extractLsb' 2 2,
        scid := (byteAt b 0).extractLsb' 0 2 ++ byteAt b 1,
        vcid := (byteAt b 2).extractLsb' 2 6,
        frameLength := (byteAt b 2).extractLsb' 0 2 ++ byteAt b 3, seq := byteAt b 4 } := by
  simp only [tcParseHeader, tcReceivedHeader]
  congr 1 <;> apply BitVec.eq_of_toNat_eq <;>
    simp only [toNat_append_add, BitVec.extractLsb'_toNat, Nat.shiftRight_eq_div_pow] <;> omega

theorem tcSegByte_fields (f : TcFrame) :
    (tcSegByte f).extractLsb' 6 2 = f.segFlags ∧ (tcSegByte f).extractLsb' 0 6 = f.mapId := by
  constructor <;> apply BitVec.eq_of_toNat_eq <;>
    simp only [tcSegByte, toNat_append_add, BitVec.extractLsb'_toNat,
      Nat.shiftRight_eq_div_pow] <;> omega

/-! ### The TM header -/

theorem tmHeaderBytes_tmHeader (f : TmFrame) :
    tmHeaderBytes (tmHeader f) =
      [f.version ++ f.scid.extractLsb' 4 6, f.scid.extractLsb' 0 4 ++ f.vcid ++ f.ocf, f.mcfc,
       f.vcfc, f.dfStatus ++ f.sync ++ f.pktOrder ++ f.segLenId ++ f.fhp.extractLsb' 8 3,
       f.fhp.extractLsb' 0 8] := by
  simp only [tmHeaderBytes, tmHeader, tmStatusWord, List.cons.injEq, and_true]
  refine ⟨?_, ?_, ?_, ?_, ?_, ?_⟩ <;> apply BitVec.eq_of_toNat_eq <;>
    simp only [toNat_append_add, BitVec.extractLsb'_toNat, Nat.shiftRight_eq_div_pow] <;> omega

theorem tmReceivedHeader_tmHeaderBytes (h : BitVec 48) (t : Bytes) :
    tmReceivedHeader (tmHeaderBytes h ++ t) = h := by
  simp only [tmReceivedHeader, tmHeaderBytes, byteAt, List.cons_append, List.getD_cons_zero,
    List.getD_cons_succ]
  apply BitVec.eq_of_toNat_eq
  simp only [toNat_append_add, BitVec.extractLsb'_toNat, Nat.shiftRight_eq_div_pow]
  omega

theorem tmParseHeader_tmHeader (f : TmFrame) :
    tmParseHeader (tmHeader f) = { f with payload := [], fecf := 0#16 } := by
  simp only [tmParseHeader, tmHeader, tmStatusWord, zeroTmFrame]
  congr 1 <;> apply BitVec.eq_of_toNat_eq <;>
    simp only [toNat_append_add, BitVec.extractLsb'_toNat, Nat.shiftRight_eq_div_pow] <;> omega

/-- The fields of a received TM header, each from its bits on the wire. -/
theorem tmParseHeader_tmReceivedHeader (b : Bytes) :
    tmParseHeader (tmReceivedHeader b) =
      { zeroTmFrame with
        version := (byteAt b 0).extractLsb' 6 2,
        scid := (byteAt b 0).extractLsb' 0 6 ++ (byteAt b 1).extractLsb' 4 4,
        vcid := (byteAt b 1).extractLsb' 1 3, ocf := (byteAt b 1).extractLsb' 0 1,
        mcfc := byteAt b 2, vcfc := byteAt b 3,
        dfStatus := (byteAt b 4).extractLsb' 7 1, sync := (byteAt b 4).extractLsb' 6 1,
        pktOrder := (byteAt b 4).extractLsb' 5 1, segLenId := (byteAt b 4).extractLsb' 3 2,
        fhp := (byteAt b 4).extractLsb' 0 3 ++ byteAt b 5 } := by
  simp only [tmParseHeader, tmReceivedHeader]
  congr 1 <;> apply BitVec.eq_of_toNat_eq <;>
    simp only [toNat_append_add, BitVec.extractLsb'_toNat, Nat.shiftRight_eq_div_pow] <;> omega

/-! ### The encoded frames -/

theorem tcEncodeBody_length (seg : Bool) (f : TcFrame) :
    (tcEncodeBody seg f).length = 5 + tcSegPresent seg f.cc + f.payload.length := by
  unfold tcEncodeBody tcSegPresent
  split <;> simp [tcHeaderBytes] <;> omega

/-- The encoded frame has the total length (41_primitives.md R91). -/
theorem tcEncodeFrame_length (seg : Bool) (f : TcFrame) :
    (tcEncodeFrame seg f).length = tcTotalLen f.payload.length (tcSegPresent seg f.cc) := by
  simp [tcEncodeFrame, tcEncodeBody_length, tcTotalLen, Config.tcPhLen, Config.fecfLen]

theorem tmEncodeBody_length (f : TmFrame) : (tmEncodeBody f).length = 6 + f.payload.length := by
  simp [tmEncodeBody, tmHeaderBytes]; omega

/-- The encoded frame has the total length (41_primitives.md R92). -/
theorem tmEncodeFrame_length (f : TmFrame) :
    (tmEncodeFrame f).length = tmTotalLen f.payload.length := by
  simp [tmEncodeFrame, tmEncodeBody_length, tmTotalLen, Config.tmPhLen, Config.fecfLen]

/-- A write at index 0 leaves the tail of the buffer (20_memory.md R33, R34). -/
theorem memWrite_zero (d s : Bytes) : memWrite d 0 s = s ++ d.drop s.length := by
  simp [memWrite]

theorem memWrite_zero_take (d s : Bytes) : (memWrite d 0 s).take s.length = s := by
  simp [memWrite]

theorem memWrite_length {d s : Bytes} {i : Nat} (h : i + s.length ≤ d.length) :
    (memWrite d i s).length = d.length := by
  simp [memWrite]; omega

end Sys2Proof.Machine
end

