-- ==== Sys2Proof/Laws/Received.lean ====
section
/-! SUPPORT. What the decoders answer for a present buffer, with its length checks on natural numbers:
the pseudocode of 42_tc_codec.md R130 and 43_tm_codec.md R160, case by case. -/

namespace Sys2Proof.Machine

theorem receivedCrc_eq (b : Bytes) : receivedCrc b = crc16 (b.take (b.length - 2)) := by
  simp [receivedCrc, memRead, Config.fecfLen]

theorem tcSegPresent_le_one (seg : Bool) (cc : BitVec 1) : tcSegPresent seg cc ≤ 1 := by
  unfold tcSegPresent; split <;> omega

theorem tcSegParsed_le_one (seg e : Bool) (cc : BitVec 1) : tcSegParsed seg e cc ≤ 1 := by
  unfold tcSegParsed; split <;> omega

/-- The control-command flag is bit 4 of byte 0 (30_encoding.md R56). -/
theorem tcParseHeader_cc (b : Bytes) :
    (tcParseHeader (tcReceivedHeader b)).cc = (byteAt b 0).extractLsb' 4 1 := by
  rw [tcParseHeader_tcReceivedHeader]

theorem tcDecode_some (seg e : Bool) (b : Bytes) (s : Nat)
    (hs : s = tcSegParsed seg e ((byteAt b 0).extractLsb' 4 1)) :
    tcDecode seg e (some b) true =
      if b.length < 7 then .error .invalidParameter
      else if s = 1 ∧ b.length < 8 then .error .invalidFrame
      else if 1031 + s < b.length then .error .invalidFrame
      else if crc16 (b.take (b.length - 2)) ≠ declaredFecf b then .error .crcMismatch
      else .ok { tcParseSeg b s (tcParseHeader (tcReceivedHeader b)) with
        payload := (b.drop (5 + s)).take (b.length - 7 - s)
        fecf := declaredFecf b } := by
  have hs1 : s ≤ 1 := hs ▸ tcSegParsed_le_one ..
  simp only [tcDecode, tcParseHeader_cc, ← hs, Config.tcPhLen, Config.fecfLen, Config.segHdrLen,
    Config.maxPayload, receivedCrc_eq, tcRxPayloadLen, memRead]
  split
  · rfl
  split
  · rfl
  have hbound : ((1024 : Nat) : Int) < (b.length : Int) - (5 : Nat) - s - (2 : Nat) ↔
      1031 + s < b.length := by omega
  have hlen : ((b.length : Int) - (5 : Nat) - s - (2 : Nat)).toNat = b.length - 7 - s := by omega
  simp only [hbound, hlen]

theorem tmDecode_some (b : Bytes) :
    tmDecode (some b) true =
      if b.length < 8 then .error .invalidParameter
      else if 1032 < b.length then .error .invalidFrame
      else if crc16 (b.take (b.length - 2)) ≠ declaredFecf b then .error .crcMismatch
      else .ok { tmParseHeader (tmReceivedHeader b) with
        payload := (b.drop 6).take (b.length - 8)
        fecf := declaredFecf b } := by
  simp only [tmDecode, Config.tmPhLen, Config.fecfLen, Config.maxPayload, receivedCrc_eq,
    tmRxPayloadLen, memRead]
  split
  · rfl
  have hbound : ((1024 : Nat) : Int) < (b.length : Int) - (6 : Nat) - (2 : Nat) ↔
      1032 < b.length := by omega
  have hlen : ((b.length : Int) - (6 : Nat) - (2 : Nat)).toNat = b.length - 8 := by omega
  simp only [hbound, hlen]

end Sys2Proof.Machine
end

