-- ==== Sys2Proof/Laws/Refusal.lean ====
section
/-! SUPPORT. When a command completes and when it is refused: a decoded command by its
well-formedness, a word by its fields (60_exceptions.md R190). And how a run takes its steps apart. -/

namespace Sys2Proof.Machine

variable {s t : State}

/-- A command whose operand record heads the issued ones completes when it is well-formed for the
build, and is refused when it is not. -/
theorem exec_completes_or_refuses (i : Instr) {c : Command} {rest : List Command}
    (h : s.pending = c :: rest) :
    (i.wf s.segHdr c.ops = true ∧ ∃ t, exec i s = .next t) ∨
      (i.wf s.segHdr c.ops = false ∧ ∃ r, exec i s = .refused r) := by
  obtain ⟨w, ops⟩ := c
  have ho := State.operands_of_pending s h
  cases i <;> cases ops <;>
    simp [exec, Instr.wf, Instr.fits, Instr.presentIn, Operands.wf, execCrc16, execTcCreate,
      execTcSetSeg, execTcEncode, execTcDecode, execTmCreate, execTmEncode, execTmDecode,
      execCntRead, execCntWrite, ho]
  case tcSetSeg.tcSetSeg f _ _ =>
    cases s.segHdr <;> cases f <;> simp [tcOperandTooLong]
    rename_i f; cases f.wf <;> simp
  case tcEncode.tcEncode f _ _ =>
    cases f <;> simp [tcOperandTooLong]
    rename_i f; cases f.wf <;> simp
  case tmEncode.tmEncode f _ _ =>
    cases f <;> simp [tmOperandTooLong]
    rename_i f; cases f.wf <;> simp
  case tcDecode.decode e _ _ => cases s.segHdr <;> cases e <;> simp
  all_goals split <;> simp

/-- A word that the decoder rejects has one of the three faults of 30_encoding.md R47 to R49. -/
theorem decode_error {w : CmdWord} {why : DecodeError} (h : decode w = .error why) :
    resOf w ≠ 0#23 ∨ opcOf w ∉ opcodes ∨ (eOf w = true ∧ opcOf w ≠ 0x13#8) := by
  unfold decode at h
  split at h
  · right
    by_cases hm : opcOf w ∈ opcodes
    · right
      simp only [opcodes, List.mem_cons, List.not_mem_nil, or_false] at hm
      generalize eOf w = e at *
      generalize opcOf w = opc at *
      rcases hm with rfl | rfl | rfl | rfl | rfl | rfl | rfl | rfl | rfl | rfl <;>
        cases e <;> simp [decodeOpc, plainCommand] at h ⊢
    · exact .inl hm
  · exact .inl ‹_›

theorem shapeOfOpc_opc (i : Instr) (ops : Operands) : shapeOfOpc i.opc ops = i.fits ops := by
  cases i <;> cases ops <;> rfl

/-- A run is its first step and the rest. -/
theorem run_cons {n : Nat} {m : State} (h : step s = .next m) :
    core.run (n + 1) s = core.run n m := by
  simp only [Host.Core.run]; rw [show core.step s = .next m from h]

/-- A run that answers a next state took a step that did. -/
theorem run_next {n : Nat} (h : core.run (n + 1) s = .next t) :
    ∃ m, step s = .next m ∧ core.run n m = .next t := by
  cases hs : step s with
  | next m => exact ⟨m, rfl, run_cons hs ▸ h⟩
  | fault r => cases r
  | refused r =>
    simp only [Host.Core.run] at h
    rw [show core.step s = .refused r from hs] at h
    cases h

/-- The step after `withFetchWord` runs the command that the placed word decodes to, on the sample
record of its opcode. -/
theorem step_withFetchWord {nbits w : Nat} {i : Instr}
    (h : decode (BitVec.ofNat 32 (w % 2 ^ nbits)) = .ok i) :
    step (s.withFetchWord nbits w) = exec i (s.withFetchWord nbits w) :=
  step_of_decode rfl h

end Sys2Proof.Machine
end

