-- ==== Sys2Proof/Tests/Slice0.lean ====
section
/-! SUPPORT. The model's own tests. Expected values are those of spec/95_test_vectors.md (their ids stand
beside them) and words written out from spec/30_encoding.md; `witness_<Name>` meets every hypothesis
of the obligation `<Name>`, one conjunct for each of its clauses. -/

open Sys2Proof Sys2Proof.Machine Sys2Proof.Claims

namespace Sys2Proof.Tests

/-! ### Helpers -/

/-- A block of build `seg` with counter `ctr`, to which the host has issued these commands. -/
def block (seg : Bool) (ctr : Count) (cs : List Command) : State := ⟨ctr, seg, cs, [], 0⟩

/-- The same, with one command issued. -/
def host (seg : Bool) (ctr : Count) (w : CmdWord) (ops : Operands) : State :=
  block seg ctr [⟨w, ops⟩]

/-- The result record a step delivers. -/
def result : Outcome → Option ResultRecord
  | .next s => s.delivered.head?
  | _ => none

/-- The number of the status a step delivers. -/
def statusOf (o : Outcome) : Option Nat := (result o).map fun r => r.status.code

/-- The counter after a step. -/
def ctrAfter : Outcome → Option Count
  | .next s => some s.ctr
  | _ => none

def isNext : Outcome → Bool
  | .next _ => true
  | _ => false

def isRefused : Outcome → Bool
  | .refused _ => true
  | _ => false

theorem exists_next {o : Outcome} (h : isNext o = true) : ∃ t, o = .next t := by
  cases o with
  | next t => exact ⟨t, rfl⟩
  | fault r => cases r
  | refused r => cases h

theorem issued_host (seg : Bool) (ctr : Count) (w : CmdWord) (ops : Operands) :
    issued (host seg ctr w ops) ops [] := ⟨w, rfl⟩

def bytes (l : List Nat) : Bytes := l.map (BitVec.ofNat 8)

def zeros (n : Nat) : Bytes := List.replicate n 0#8

theorem zeros_length (n : Nat) : (zeros n).length = n := List.length_replicate

/-- ASCII "SET_MODE SAFE". -/
def safe : Bytes :=
  bytes [0x53, 0x45, 0x54, 0x5F, 0x4D, 0x4F, 0x44, 0x45, 0x20, 0x53, 0x41, 0x46, 0x45]

/-- F1 of V-TC-C1 (frame_length 19), of V-TC-C2 with frame_length 20. -/
def f1 (fl : BitVec 10) : TcFrame :=
  { zeroTcFrame with scid := 0x123#10, vcid := 1#6, seq := 42#8, frameLength := fl, payload := safe }

/-- The frame F of section 2.4 (SEG on). -/
def segF : TcFrame :=
  { zeroTcFrame with
    scid := 0x123#10, vcid := 1#6, seq := 42#8, frameLength := 9#10, payload := bytes [1, 2] }

/-- The frame G of V-SEG-1. -/
def segG : TcFrame := { segF with segFlags := 0b11#2, mapId := 5#6 }

/-- The longest legal frame. -/
def longTc : TcFrame := { segF with payload := zeros 1024 }

/-- The record of V-TC-E5. -/
def e5 : TcFrame :=
  { zeroTcFrame with
    bypass := 1#1, cc := 1#1, scid := 0x2AA#10, vcid := 0x15#6, seq := 7#8, payload := [0xAB#8] }

/-- T1 of V-TM-1. -/
def t1 : TmFrame :=
  { zeroTmFrame with scid := 0x123#10, vcid := 1#3, segLenId := 3#2, payload := safe }

def e1Bytes : Bytes := bytes [0x01, 0x23, 0x04, 0x13, 0x2A] ++ safe ++ bytes [0xDD, 0x11]
def e2Bytes : Bytes := bytes [0x01, 0x23, 0x04, 0x14, 0x2A, 0x00] ++ safe ++ bytes [0x47, 0xBF]
def segGBytes : Bytes := bytes [0x01, 0x23, 0x04, 0x09, 0x2A, 0xC5, 0x01, 0x02, 0xEF, 0xD5]
def e5Bytes : Bytes := bytes [0x32, 0xAA, 0x54, 0x07, 0x07, 0xAB, 0x61, 0x5A]
def d6Bytes : Bytes := bytes [0x00, 0x00, 0x00, 0x06, 0x00, 0xBB, 0xAA]
def tm1Bytes : Bytes :=
  bytes [0x12, 0x32, 0x00, 0x00, 0x18, 0x00] ++ safe ++ bytes [0x79, 0x3B]
def tm10Bytes : Bytes := bytes [0xFF, 0xFF, 0xAB, 0xCD, 0xFF, 0xFF, 0x8D, 0xC0]

/-- Any body with its CRC after it, as an encoder leaves it. -/
def sealed (b : Bytes) : Bytes := b ++ be16 (crc16 b)

theorem sealed_length (b : Bytes) : (sealed b).length = b.length + 2 := by simp [sealed]

theorem sealed_crc (b : Bytes) :
    crc16 ((sealed b).take ((sealed b).length - 2)) = declaredFecf (sealed b) := by
  rw [← receivedCrc_eq, sealed, receivedCrc_append_be16, declaredFecf_append_be16]

/-! ### Well-formedness refuses the ill-formed -/

theorem test_wf_tcFrame : ({ zeroTcFrame with payload := zeros 1025 } : TcFrame).wf = false := by
  decide +kernel

theorem test_wf_tmFrame : ({ zeroTmFrame with payload := zeros 1025 } : TmFrame).wf = false := by
  decide +kernel

theorem test_wf_noSegHdr : ({ zeroTcFrame with mapId := 1#6 } : TcFrame).noSegHdr = false ∧
    ({ zeroTcFrame with segFlags := 1#2 } : TcFrame).noSegHdr = false := by decide

theorem test_wf_operands :
    (Operands.tcSetSeg (some { zeroTcFrame with payload := zeros 1025 }) 0#2 0#8).wf = false ∧
    (Operands.tcEncode (some { zeroTcFrame with payload := zeros 1025 }) none true).wf = false ∧
    (Operands.tmEncode (some { zeroTmFrame with payload := zeros 1025 }) none true).wf = false := by
  decide +kernel

theorem test_wf_fits : Instr.fits .crc16 .cntRead = false ∧
    Instr.fits .tcCreate (.tmCreate 0#16 0#8 none true) = false ∧
    Instr.fits .tcEncode (.tmEncode none none true) = false := by decide

theorem test_wf_presentIn : Instr.presentIn false .tcSetSeg = false ∧
    Instr.presentIn false (.tcDecode true) = false := by decide

theorem test_wf_instr : Instr.wf false .tcSetSeg (.tcSetSeg none 0#2 0#8) = false ∧
    Instr.wf true .cntWrite .cntRead = false ∧
    Instr.wf true .tcEncode (.tcEncode (some { zeroTcFrame with payload := zeros 1025 }) none true)
      = false := by decide +kernel

/-! ### Decoding: RES(23) E(1) OPC(8), written out from 30_encoding.md R45, R46 -/

theorem test_decode_crc16 :
    decode (0b00000000000000000000000#23 ++ 0b0#1 ++ 0b00000001#8) = .ok .crc16 := by decide
theorem test_decode_tcCreate :
    decode (0b00000000000000000000000#23 ++ 0b0#1 ++ 0b00010000#8) = .ok .tcCreate := by decide
theorem test_decode_tcSetSeg :
    decode (0b00000000000000000000000#23 ++ 0b0#1 ++ 0b00010001#8) = .ok .tcSetSeg := by decide
theorem test_decode_tcEncode :
    decode (0b00000000000000000000000#23 ++ 0b0#1 ++ 0b00010010#8) = .ok .tcEncode := by decide
theorem test_decode_tcDecode :
    decode (0b00000000000000000000000#23 ++ 0b0#1 ++ 0b00010011#8) = .ok (.tcDecode false) ∧
    decode (0b00000000000000000000000#23 ++ 0b1#1 ++ 0b00010011#8) = .ok (.tcDecode true) := by
  decide
theorem test_decode_tmCreate :
    decode (0b00000000000000000000000#23 ++ 0b0#1 ++ 0b00100000#8) = .ok .tmCreate := by decide
theorem test_decode_tmEncode :
    decode (0b00000000000000000000000#23 ++ 0b0#1 ++ 0b00100001#8) = .ok .tmEncode := by decide
theorem test_decode_tmDecode :
    decode (0b00000000000000000000000#23 ++ 0b0#1 ++ 0b00100010#8) = .ok .tmDecode := by decide
theorem test_decode_cntRead :
    decode (0b00000000000000000000000#23 ++ 0b0#1 ++ 0b00110000#8) = .ok .cntRead := by decide
theorem test_decode_cntWrite :
    decode (0b00000000000000000000000#23 ++ 0b0#1 ++ 0b00110001#8) = .ok .cntWrite := by decide

/-- V-REF-1, V-REF-2. -/
theorem test_decode_reserved_opcodes :
    ([0x00#32, 0x02#32, 0x14#32, 0x23#32, 0x32#32, 0xFF#32].all fun w =>
      decode w == .error .reservedOpcode) = true := by decide

/-- V-REF-3, V-REF-4. -/
theorem test_decode_reserved_bits : decode 0x00000201#32 = .error .reservedBits ∧
    decode 0x80000010#32 = .error .reservedBits := by decide

/-- V-REF-5. -/
theorem test_decode_stray_e : decode 0x00000110#32 = .error .strayE := by decide

/-- V-REF-6, V-REF-7, V-REF-8: the build decides. -/
theorem test_build_decides :
    isRefused (step (host false 0#8 0x113#32 (.decode (some d6Bytes) true))) = true ∧
    isNext (step (host true 0#8 0x113#32 (.decode (some d6Bytes) true))) = true ∧
    isRefused (step (host false 0#8 0x11#32 (.tcSetSeg (some segF) 1#2 1#8))) = true := by
  decide +kernel

/-- V-REF-9. -/
theorem test_over_long_frame_refused : ([true, false].all fun seg =>
    isRefused (step (host seg 0#8 0x12#32
      (.tcEncode (some { zeroTcFrame with payload := zeros 1025 }) (some []) true)))) = true := by
  decide +kernel

theorem test_table_word : decodeTableWord 32 0x113 = some (.tcDecode true) ∧
    decodeTableWord 32 0x02 = none := by decide

/-- P1 line 2 and P4 line 5, as they are written. -/
theorem test_assembleLine :
    assembleLine ⟨[("F1", f1 19#10)], []⟩ ⟨"tc.encode", [.frame "F1", .buf 24], some (.named "n")⟩ =
      some ⟨0x00000012#32, .tcEncode (some (f1 19#10)) (some (zeros 24)) true⟩ ∧
    assembleLine ⟨[], []⟩ ⟨"tc.decode.seg", [.bytes [1#8]], some .absent⟩ =
      some ⟨0x00000113#32, .decode (some [1#8]) false⟩ := by decide +kernel

/-- The worked example of R52, V-TC-C4, and a line that is none: a scalar of 9 bits for 8. -/
theorem test_assembleLine_create :
    assembleLine ⟨[], []⟩ ⟨"tc.create", [.num 0x123, .num 1, .num 42, .text "SET_MODE SAFE"],
      some (.named "F1")⟩ =
      some ⟨0x00000010#32, .tcCreate 0x123#16 1#8 42#8 (some safe) true⟩ ∧
    assembleLine ⟨[], []⟩ ⟨"tc.create", [.num 1, .num 1, .num 1, .absent], some (.named "F")⟩ =
      some ⟨0x00000010#32, .tcCreate 1#16 1#8 1#8 none true⟩ ∧
    assembleLine ⟨[], []⟩ ⟨"cnt.write", [.num 256], none⟩ = none := by decide +kernel

/-- A placed word is the next command to run, from reset too. -/
theorem test_placed_word_runs :
    result (step (State.reset.withFetchWord 32 0x30)) = some (.success (.value 0x00#8)) := rfl

/-- From reset, every word that both builds have completes as the first command. -/
theorem test_placed_words_complete :
    ([0x01, 0x10, 0x12, 0x13, 0x20, 0x21, 0x22, 0x30, 0x31].all fun w =>
      isNext (step (State.reset.withFetchWord 32 w))) = true := by decide +kernel

/-! ### Vectors, one step each -/

/-- V-CRC-1, V-CRC-5, V-CRC-8, V-CRC-2 and V-CRC-9. -/
theorem test_crc16_vectors : crc16 [] = 0xFFFF#16 ∧ crc16 [0x01#8] = 0xF1D1#16 ∧
    crc16 (bytes [0, 0]) = 0x1D0F#16 ∧
    crc16 (bytes [0x31, 0x32, 0x33, 0x34, 0x35, 0x36, 0x37, 0x38, 0x39]) = 0x29B1#16 ∧
    crc16 safe = 0xE0B8#16 := by decide +kernel

/-- V-CRC-10. -/
theorem test_crc16_command :
    result (exec .crc16 (host false 7#8 0x01#32 (.crc16 (bytes [0, 1, 2, 3, 4, 5, 6, 7, 8, 9])))) =
      some (.success (.crc 0xC241#16)) := by decide +kernel

/-- V-PR-5 to V-PR-11. -/
theorem test_frame_length_field : tcFlField 13 0 = 19#10 ∧ tcFlField 13 1 = 20#10 ∧
    tcFlField 1017 0 = 1023#10 ∧ tcFlField 1018 0 = 0#10 ∧ tcFlField 1017 1 = 0#10 ∧
    tcFlField 1024 0 = 6#10 ∧ tcFlField 1024 1 = 7#10 := by decide

/-- V-TC-C1, V-TC-C2. -/
theorem test_tcCreate :
    result (exec .tcCreate (host false 0#8 0x10#32 (.tcCreate 0x123#16 1#8 42#8 (some safe) true))) =
      some (.success (.tcFrame (f1 19#10))) ∧
    result (exec .tcCreate (host true 0#8 0x10#32 (.tcCreate 0x123#16 1#8 42#8 (some safe) true))) =
      some (.success (.tcFrame (f1 20#10))) := by decide +kernel

/-- V-TC-C3 (masking) and V-TC-C6. -/
theorem test_tcCreate_masks_and_bound :
    result (exec .tcCreate (host true 0#8 0x10#32 (.tcCreate 0xFFFF#16 0xFF#8 0xFF#8 (some []) true)))
      = some (.success (.tcFrame { zeroTcFrame with
          scid := 0x3FF#10, vcid := 0x3F#6, seq := 0xFF#8, frameLength := 7#10 })) ∧
    statusOf (exec .tcCreate
      (host true 0#8 0x10#32 (.tcCreate 1#16 1#8 1#8 (some (zeros 1025)) true))) = some 1 := by
  decide +kernel

/-- V-SEG-1, V-SEG-5. -/
theorem test_tcSetSeg :
    result (exec .tcSetSeg (host true 0#8 0x11#32 (.tcSetSeg (some segF) 0b11#2 0x45#8))) =
      some (.success (.tcFrame segG)) ∧
    statusOf (exec .tcSetSeg (host true 0#8 0x11#32 (.tcSetSeg none 1#2 1#8))) = some 1 := by
  decide +kernel

/-- TC_SET_SEG on a frame with cc = 1 (section 2.4): fields written, no segment header sent. -/
theorem test_tcSetSeg_control_command :
    result (exec .tcSetSeg (host true 0#8 0x11#32 (.tcSetSeg (some { segF with cc := 1#1 }) 2#2 9#8)))
      = some (.success (.tcFrame { segF with cc := 1#1, segFlags := 2#2, mapId := 9#6 })) ∧
    result (exec .tcEncode (host true 0#8 0x12#32
      (.tcEncode (some { segF with cc := 1#1, segFlags := 2#2, mapId := 9#6 })
        (some (zeros 9)) true))) =
      some (.success (.encoded (bytes [0x11, 0x23, 0x04, 0x08, 0x2A, 0x01, 0x02, 0xDB, 0x8D]) 9)) := by
  decide +kernel

/-- P1 line 2 (four bytes of the buffer stay) and V-SEG-2. -/
theorem test_tcEncode :
    result (exec .tcEncode (host false 0#8 0x12#32
      (.tcEncode (some (f1 19#10)) (some (zeros 20 ++ [1#8, 2#8, 3#8, 4#8])) true))) =
      some (.success (.encoded (e1Bytes ++ [1#8, 2#8, 3#8, 4#8]) 20)) ∧
    result (exec .tcEncode (host true 0#8 0x12#32 (.tcEncode (some segG) (some (zeros 10)) true))) =
      some (.success (.encoded segGBytes 10)) := by decide +kernel

/-- V-TC-E3 (its DST' is free), V-TC-E4, V-TC-E8. -/
theorem test_tcEncode_checks :
    statusOf (exec .tcEncode (host false 0#8 0x12#32
      (.tcEncode (some (f1 19#10)) (some (zeros 19)) true))) = some 2 ∧
    result (exec .tcEncode (host false 0#8 0x12#32
      (.tcEncode (some (f1 0x3FF#10)) (some (zeros 20)) true))) =
      some (.success (.encoded e1Bytes 20)) ∧
    statusOf (exec .tcEncode (host false 0#8 0x12#32 (.tcEncode (some (f1 19#10)) none true))) =
      some 1 := by decide +kernel

/-- V-TC-D2, V-SEG-3, V-TC-D16. -/
theorem test_tcDecode :
    result (exec (.tcDecode true) (host true 0#8 0x113#32 (.decode (some e2Bytes) true))) =
      some (.success (.tcFrame { f1 20#10 with fecf := 0x47BF#16 })) ∧
    result (exec (.tcDecode true) (host true 0#8 0x113#32 (.decode (some segGBytes) true))) =
      some (.success (.tcFrame { segG with fecf := 0xEFD5#16 })) ∧
    result (exec (.tcDecode true) (host true 0#8 0x113#32 (.decode (some e5Bytes) true))) =
      some (.success (.tcFrame { e5 with frameLength := 7#10, fecf := 0x615A#16 })) := by
  decide +kernel

/-- V-TC-D5, V-TC-D7, V-TC-D9, V-TC-D11, V-TC-D12: each check in its order. -/
theorem test_tcDecode_checks :
    statusOf (exec (.tcDecode false) (host true 0#8 0x13#32 (.decode (some (zeros 6)) true))) =
      some 1 ∧
    statusOf (exec (.tcDecode true) (host true 0#8 0x113#32 (.decode (some d6Bytes) true))) =
      some 3 ∧
    statusOf (exec (.tcDecode false) (host false 0#8 0x13#32 (.decode (some (zeros 1032)) true))) =
      some 3 ∧
    statusOf (exec (.tcDecode true) (host true 0#8 0x113#32 (.decode (some (zeros 1033)) true))) =
      some 3 ∧
    statusOf (exec (.tcDecode false) (host false 0#8 0x13#32
      (.decode (some (flipBit e1Bytes 7 0)) true))) = some 4 := by decide +kernel

/-- V-TM-1, V-CNT-4 (the counter wraps), V-TM-11. -/
theorem test_tmCreate :
    result (exec .tmCreate (host false 0#8 0x20#32 (.tmCreate 0x123#16 1#8 (some safe) true))) =
      some (.success (.tmFrame t1)) ∧
    ctrAfter (exec .tmCreate (host false 0xFF#8 0x20#32 (.tmCreate 1#16 1#8 (some []) true))) =
      some 0x00#8 ∧
    ctrAfter (exec .tmCreate (host false 9#8 0x20#32
      (.tmCreate 1#16 1#8 (some (zeros 1025)) true))) = some 9#8 := by decide +kernel

/-- V-TM-1, V-TM-5. -/
theorem test_tmEncode :
    result (exec .tmEncode (host false 5#8 0x21#32 (.tmEncode (some t1) (some (zeros 21)) true))) =
      some (.success (.encoded tm1Bytes 21)) ∧
    statusOf (exec .tmEncode (host false 5#8 0x21#32
      (.tmEncode (some zeroTmFrame) (some (zeros 7)) true))) = some 2 := by decide +kernel

/-- V-TM-10: every field from its own bits. -/
theorem test_tmDecode :
    result (exec .tmDecode (host false 5#8 0x22#32 (.decode (some tm10Bytes) true))) =
      some (.success (.tmFrame
        { version := 3#2, scid := 0x3FF#10, vcid := 7#3, ocf := 1#1, mcfc := 0xAB#8,
          vcfc := 0xCD#8, dfStatus := 1#1, sync := 1#1, pktOrder := 1#1, segLenId := 3#2,
          fhp := 0x7FF#11, payload := [], fecf := 0x8DC0#16 })) := by decide +kernel

/-- V-TM-7, V-TM-8, V-TM-6. -/
theorem test_tmDecode_checks :
    statusOf (exec .tmDecode (host false 5#8 0x22#32 (.decode (some (zeros 7)) true))) = some 1 ∧
    statusOf (exec .tmDecode (host false 5#8 0x22#32 (.decode (some (zeros 1033)) true))) = some 3 ∧
    statusOf (exec .tmDecode (host false 5#8 0x22#32
      (.decode (some (bytes [0x80, 0x00, 0x01, 0x00, 0x18, 0x00, 0xF2, 0x7E])) true))) = some 4 := by
  decide +kernel

/-- V-CNT-1. -/
theorem test_cntRead :
    result (exec .cntRead (host false 0x00#8 0x30#32 .cntRead)) = some (.success (.value 0x00#8)) := by
  decide

/-- V-CNT-2. -/
theorem test_cntWrite :
    ctrAfter (exec .cntWrite (host false 0x12#8 0x31#32 (.cntWrite 0xFE#8))) = some 0xFE#8 := by
  decide

/-! ### Witnesses: every hypothesis of a statement met, clause by clause -/

/-- Any body with a wrong CRC after it. -/
def spoiled (b : Bytes) : Bytes := b ++ be16 (crc16 b ^^^ 1#16)

theorem spoiled_length (b : Bytes) : (spoiled b).length = b.length + 2 := by simp [spoiled]

theorem spoiled_crc (b : Bytes) :
    crc16 ((spoiled b).take ((spoiled b).length - 2)) ≠ declaredFecf (spoiled b) := by
  rw [← receivedCrc_eq, spoiled, receivedCrc_append_be16, declaredFecf_append_be16]
  intro h
  have := congrArg (fun v : BitVec 16 => v.getLsbD 0) h
  simp at this

/-- The commands the witnesses issue. -/
def createCmd : Command := ⟨0x20#32, .tmCreate 1#16 1#8 (some []) true⟩
def readCmd : Command := ⟨0x30#32, .cntRead⟩
def crcCmd : Command := ⟨0x01#32, .crc16 [1#8]⟩

theorem witness_ReservedCommandsAreRefused :
    ((host true 0#8 0x201#32 .cntRead).pending = [⟨0x201#32, .cntRead⟩] ∧ resOf 0x201#32 ≠ 0#23) ∧
    opcOf 0x02#32 ∉ opcodes ∧
    (eOf 0x101#32 = true ∧ opcOf 0x101#32 ≠ 0x13#8) ∧
    (eOf 0x113#32 = true ∧ (host false 0#8 0x113#32 (.decode none true)).segHdr = false) ∧
    (opcOf 0x11#32 = 0x11#8 ∧
      (host false 0#8 0x11#32 (.tcSetSeg none 0#2 0#8)).segHdr = false) := by decide

/-- A command with a meaning, and one of each of the six kinds without. -/
theorem witness_CommandsCompleteUnlessMeaningless :
    (block true 0#8 [createCmd]).pending = [createCmd] ∧ ¬ createCmd.meaningless true ∧
    (⟨0x02#32, .cntRead⟩ : Command).meaningless true ∧
    (⟨0x230#32, .cntRead⟩ : Command).meaningless true ∧
    (⟨0x130#32, .cntRead⟩ : Command).meaningless true ∧
    (⟨0x113#32, .decode none true⟩ : Command).meaningless false ∧
    (⟨0x11#32, .tcSetSeg none 0#2 0#8⟩ : Command).meaningless false ∧
    (⟨0x12#32, .tcEncode (some { zeroTcFrame with payload := zeros 1025 }) none true⟩ :
      Command).meaningless true ∧
    (⟨0x30#32, .crc16 []⟩ : Command).meaningless true := by
  refine ⟨rfl, ?_, ?_, ?_, ?_, ?_, ?_, ?_, ?_⟩ <;> unfold Command.meaningless <;> decide +kernel

theorem witness_EveryLineIsOneCommand :
    assembleLine ⟨[], []⟩ ⟨"cnt.read", [], some (.named "v")⟩ = some readCmd := by decide

theorem witness_StepRunsDecodedCommand :
    (block true 0#8 [createCmd]).pending = [createCmd] ∧ decode createCmd.word = .ok .tmCreate ∧
    (host true 0#8 0x02#32 .cntRead).pending = [⟨0x02#32, .cntRead⟩] ∧
    decode 0x02#32 = .error .reservedOpcode := by decide

theorem witness_BlockWaitsWithoutCommand : (block true 3#8 []).pending = [] := rfl

theorem witness_BuildParameterIsConstant : ∃ t, step (block true 3#8 [createCmd]) = .next t :=
  exists_next (by decide +kernel)

theorem witness_OnlyTmCreateAndCntWriteWriteCtr :
    (∃ t, exec .crc16 (block true 3#8 [crcCmd]) = .next t) ∧
    (∃ t, exec .tmCreate (block true 3#8 [createCmd]) = .next t) ∧
    (∃ t, exec .cntWrite (host true 3#8 0x31#32 (.cntWrite 9#8)) = .next t) :=
  ⟨exists_next (by decide +kernel), exists_next (by decide +kernel), exists_next (by decide +kernel)⟩

/-- An encode command, which draws, and one that is none. -/
theorem witness_CommandFrame :
    (∃ t, exec .tcEncode (host true 3#8 0x12#32 (.tcEncode none (some [1#8]) true)) = .next t) ∧
    (∃ t, exec .crc16 (block true 3#8 [crcCmd]) = .next t) :=
  ⟨exists_next (by decide +kernel), exists_next (by decide +kernel)⟩

theorem witness_FailureLeavesNothingBehind : ∃ (t : State) (dst' : Option Bytes),
    issued (host true 3#8 0x12#32 (.tcEncode none (some [1#8]) true))
      (.tcEncode none (some [1#8]) true) [] ∧
    exec .tcEncode (host true 3#8 0x12#32 (.tcEncode none (some [1#8]) true)) = .next t ∧
    t.delivered = .failure .invalidParameter dst' :: [] :=
  ⟨_, _, issued_host .., rfl, rfl⟩

theorem witness_StepsKeepResultsWellFormed :
    ({ block true 3#8 [createCmd] with delivered := [.success (.tcFrame segG)] } : State).Inv ∧
    (∃ t, step { block true 3#8 [createCmd] with delivered := [.success (.tcFrame segG)] } =
      .next t) := by
  refine ⟨?_, exists_next (by decide +kernel)⟩
  intro r hr
  obtain rfl := List.mem_singleton.mp hr
  exact ⟨by decide, fun h => nomatch h⟩

theorem witness_FiniteRunsComplete :
    ∀ c ∈ (block true 3#8 [createCmd, readCmd, crcCmd]).pending, ¬ c.meaningless true := by
  unfold Command.meaningless; decide +kernel

/-- Two blocks that differ in all that must not matter, on a command whose DST' is drawn. -/
theorem witness_ResultDependsOnlyOnCommandAndCtr : ∃ (s u : State) (c : Command) (rest : List Command),
    s.pending = c :: [] ∧ u.pending = c :: rest ∧ rest ≠ [] ∧ u.ctr = s.ctr ∧ u.segHdr = s.segHdr ∧
    u.draws ≠ s.draws ∧ u.delivered ≠ s.delivered ∧ ∃ s', step s = .next s' :=
  let c : Command := ⟨0x12#32, .tcEncode none (some [1#8]) true⟩
  ⟨block true 3#8 [c], ⟨3#8, true, [c, readCmd], [.success .none], 5⟩, c, [readCmd],
    rfl, rfl, by decide, rfl, rfl, by decide, by decide, exists_next (by decide +kernel)⟩

theorem witness_CtrFreeCommandsCommute : crcCmd.touchesCtr = false ∧
    (block true 3#8 [crcCmd, createCmd]).pending = crcCmd :: createCmd :: [] ∧
    ∃ t, core.run 2 (block true 3#8 [crcCmd, createCmd]) = .next t :=
  ⟨by decide, rfl, exists_next (by decide +kernel)⟩

/-- The last bit of the last byte and the first of the first. -/
theorem witness_CrcSeesEverySingleBit : (1 < (bytes [1, 2]).length ∧ 0 < 8) ∧
    (0 < (bytes [1, 2]).length ∧ 7 < 8) := by decide

/-- Narrower, and of one width. -/
theorem witness_MaskKeepsLowBits : 10 ≤ 16 ∧ mask 10 0xFFFF#16 = 0x3FF#10 ∧ 8 ≤ 8 := by decide

/-- For TotalLengths, FrameLengthFieldWraps and LengthIdentities: the ends of the ranges. -/
theorem witness_lengths : (0 ≤ 1024 ∧ 0 ≤ 1) ∧ (1024 ≤ 1024 ∧ 1 ≤ 1) ∧
    (tcTotalLen 1018 0 - 1 > 1023 ∧ ¬ tcTotalLen 1017 0 - 1 > 1023) := by decide

/-- Both builds, the longest payload; and the three failures. -/
theorem witness_TcCreateCommand :
    (issued (host true 0#8 0x10#32 (.tcCreate 1#16 1#8 1#8 (some (zeros 1024)) true))
      (.tcCreate 1#16 1#8 1#8 (some (zeros 1024)) true) [] ∧ (zeros 1024).length ≤ 1024) ∧
    issued (host false 0#8 0x10#32 (.tcCreate 1#16 1#8 1#8 (some []) true))
      (.tcCreate 1#16 1#8 1#8 (some []) true) [] ∧
    issued (host true 0#8 0x10#32 (.tcCreate 1#16 1#8 1#8 none false))
      (.tcCreate 1#16 1#8 1#8 none false) [] ∧
    (issued (host true 0#8 0x10#32 (.tcCreate 1#16 1#8 1#8 (some (zeros 1025)) true))
      (.tcCreate 1#16 1#8 1#8 (some (zeros 1025)) true) [] ∧ 1024 < (zeros 1025).length) := by
  simp [zeros_length, issued_host]

/-- A short and the longest legal frame; no frame; a frame one byte too long; the other build. -/
theorem witness_TcSetSegWritesSegmentHeader :
    (issued (host true 0#8 0x11#32 (.tcSetSeg (some segF) 3#2 0x45#8))
      (.tcSetSeg (some segF) 3#2 0x45#8) [] ∧
      (host true 0#8 0x11#32 (.tcSetSeg (some segF) 3#2 0x45#8)).segHdr = true ∧
      segF.payload.length ≤ 1024) ∧
    (issued (host true 0#8 0x11#32 (.tcSetSeg (some { segF with payload := zeros 1024 }) 3#2 5#8))
      (.tcSetSeg (some { segF with payload := zeros 1024 }) 3#2 5#8) [] ∧
      ({ segF with payload := zeros 1024 } : TcFrame).payload.length ≤ 1024) ∧
    issued (host true 0#8 0x11#32 (.tcSetSeg none 3#2 0x45#8)) (.tcSetSeg none 3#2 0x45#8) [] ∧
    (issued (host true 0#8 0x11#32 (.tcSetSeg (some { segF with payload := zeros 1025 }) 3#2 5#8))
      (.tcSetSeg (some { segF with payload := zeros 1025 }) 3#2 5#8) [] ∧
      1024 < ({ segF with payload := zeros 1025 } : TcFrame).payload.length) ∧
    (host false 0#8 0x11#32 (.tcSetSeg none 3#2 0x45#8)).segHdr = false :=
  ⟨⟨issued_host .., rfl, by decide⟩, ⟨issued_host .., (zeros_length 1024).le⟩, issued_host ..,
    ⟨issued_host .., by simp [zeros_length]⟩, rfl⟩

/-- A buffer of exactly the total length, with and without a segment header; the longest legal frame; a
frame with segment-header fields on a block without the feature; a buffer one byte short; an absent
operand; a frame one byte too long. -/
theorem witness_TcEncodeCommand :
    (issued (host true 0#8 0x12#32 (.tcEncode (some segG) (some (zeros 10)) true))
      (.tcEncode (some segG) (some (zeros 10)) true) [] ∧ segG.payload.length ≤ 1024 ∧
      5 + segCount true segG.cc + segG.payload.length + 2 ≤ (zeros 10).length) ∧
    (issued (host true 0#8 0x12#32 (.tcEncode (some e5) (some (zeros 8)) true))
      (.tcEncode (some e5) (some (zeros 8)) true) [] ∧ e5.payload.length ≤ 1024 ∧
      5 + segCount true e5.cc + e5.payload.length + 2 ≤ (zeros 8).length) ∧
    (issued (host true 0#8 0x12#32 (.tcEncode (some longTc) (some (zeros 1032)) true))
      (.tcEncode (some longTc) (some (zeros 1032)) true) [] ∧ longTc.payload.length ≤ 1024 ∧
      5 + segCount true longTc.cc + longTc.payload.length + 2 ≤ (zeros 1032).length) ∧
    (issued (host false 0#8 0x12#32 (.tcEncode (some segG) (some (zeros 9)) true))
      (.tcEncode (some segG) (some (zeros 9)) true) [] ∧ segG.noSegHdr = false ∧
      5 + segCount false segG.cc + segG.payload.length + 2 ≤ (zeros 9).length) ∧
    (issued (host true 0#8 0x12#32 (.tcEncode (some segG) (some (zeros 9)) true))
      (.tcEncode (some segG) (some (zeros 9)) true) [] ∧
      (zeros 9).length < tcTotalLen segG.payload.length (tcSegPresent true segG.cc)) ∧
    issued (host true 0#8 0x12#32 (.tcEncode none (some (zeros 9)) true))
      (.tcEncode none (some (zeros 9)) true) [] ∧
    (issued (host true 0#8 0x12#32 (.tcEncode (some { e5 with payload := zeros 1025 }) none true))
      (.tcEncode (some { e5 with payload := zeros 1025 }) none true) [] ∧
      1024 < ({ e5 with payload := zeros 1025 } : TcFrame).payload.length) :=
  ⟨⟨issued_host .., by decide, by decide⟩, ⟨issued_host .., by decide, by decide⟩,
    ⟨issued_host .., (zeros_length 1024).le, by simp [longTc, segF, zeroTcFrame, segCount, zeros_length]⟩,
    ⟨issued_host .., by decide, by decide⟩, ⟨issued_host .., by decide⟩, issued_host ..,
    ⟨issued_host .., by simp [zeros_length]⟩⟩

/-- The condition under which a segment header is parsed, as the statement writes it. -/
def parsesSeg (s : State) (e : Bool) (b : Bytes) : Prop :=
  e = true ∧ s.segHdr = true ∧ (b.getD 0 0#8).extractLsb' 4 1 = 0#1

def decoding (seg e : Bool) (b : Bytes) : State :=
  host seg 0#8 (Instr.tcDecode e).encode (.decode (some b) true)

theorem issued_decoding (seg e : Bool) (b : Bytes) :
    issued (decoding seg e b) (.decode (some b) true) [] := ⟨_, rfl⟩

theorem zeros_first (n : Nat) (t : Bytes) : (zeros (n + 1) ++ t).getD 0 0#8 = 0#8 := rfl

/-- A frame whose first byte is 0 has cc = 0. -/
theorem parsesSeg_zeros (n : Nat) (t : Bytes) :
    parsesSeg (decoding true true (zeros (n + 1) ++ t)) true (zeros (n + 1) ++ t) :=
  ⟨rfl, rfl, by rw [zeros_first]; decide⟩

theorem not_parsesSeg (s : State) (b : Bytes) : ¬ parsesSeg s false b := fun h => nomatch h.1

/-- The lengths at which one check gives way to the next, with a segment header (`n = 1`) and without,
each for a right and a wrong FECF. -/
theorem witness_TcDecodeCommand :
    issued (host false 0#8 0x13#32 (.decode none true)) (.decode none true) [] ∧
    (issued (decoding true true (zeros 6)) (.decode (some (zeros 6)) true) [] ∧
      (zeros 6).length < 7) ∧
    (parsesSeg (decoding true true (zeros 7)) true (zeros 7) ∧ 7 ≤ (zeros 7).length ∧
      (zeros 7).length < 8) ∧
    (¬ parsesSeg (decoding false false (zeros 1032)) false (zeros 1032) ∧
      1031 < (zeros 1032).length) ∧
    (parsesSeg (decoding true true (zeros 1033)) true (zeros 1033) ∧
      1031 + 1 < (zeros 1033).length) ∧
    (parsesSeg (decoding true true (spoiled (zeros 1030))) true (spoiled (zeros 1030)) ∧
      (spoiled (zeros 1030)).length = 1031 + 1) ∧
    (¬ parsesSeg (decoding true false (spoiled (zeros 5))) false (spoiled (zeros 5)) ∧
      (spoiled (zeros 5)).length = 7) ∧
    (parsesSeg (decoding true true (sealed (zeros 1030))) true (sealed (zeros 1030)) ∧
      (sealed (zeros 1030)).length = 1031 + 1) ∧
    (parsesSeg (decoding true true (sealed (zeros 6))) true (sealed (zeros 6)) ∧
      (sealed (zeros 6)).length = 7 + 1) ∧
    (¬ parsesSeg (decoding true false (sealed (zeros 1029))) false (sealed (zeros 1029)) ∧
      (sealed (zeros 1029)).length = 1031) := by
  refine ⟨issued_host .., ⟨issued_decoding .., ?_⟩, ⟨?_, ?_, ?_⟩, ⟨not_parsesSeg _ _, ?_⟩, ⟨?_, ?_⟩,
    ⟨parsesSeg_zeros 1029 _, ?_⟩, ⟨not_parsesSeg _ _, ?_⟩, ⟨parsesSeg_zeros 1029 _, ?_⟩,
    ⟨parsesSeg_zeros 5 _, ?_⟩, ⟨not_parsesSeg _ _, ?_⟩⟩
  case refine_2 => simpa using parsesSeg_zeros 6 []
  case refine_6 => simpa using parsesSeg_zeros 1032 []
  all_goals simp [zeros_length, spoiled_length, sealed_length]

/-- What TC_ENCODE, TC_DECODE and TM_DECODE answer, from what their pseudocode computes. -/
theorem tcEncode_answers {f : TcFrame} {d d' : Bytes} {n : Nat}
    (hw : tcOperandTooLong (some f) = false) (h : tcEncode true (some f) (some d) true = .ok (d', n)) :
    ∃ t, exec .tcEncode (host true 0#8 0x12#32 (.tcEncode (some f) (some d) true)) = .next t ∧
      t.delivered = .success (.encoded d' n) :: [] := by
  have he := execTcEncode_of_operands
    (s := host true 0#8 0x12#32 (.tcEncode (some f) (some d) true)) rfl hw
  rw [show (host true 0#8 0x12#32 (.tcEncode (some f) (some d) true)).segHdr = true from rfl, h] at he
  exact ⟨_, he, rfl⟩

theorem tcDecode_answers {b : Bytes} {f : TcFrame} (h : tcDecode true true (some b) true = .ok f) :
    exec (.tcDecode true) (decoding true true b) =
      .next (answered (decoding true true b) [] (.success (.tcFrame f))) := by
  have he := execTcDecode_of_operands (s := decoding true true b) (e := true) (src := some b)
    (fout := true) rfl fun _ => rfl
  rw [show (decoding true true b).segHdr = true from rfl, h] at he
  exact he

theorem tmDecode_answers {b : Bytes} {f : TmFrame} (h : tmDecode (some b) true = .ok f) :
    exec .tmDecode (host true 0#8 0x22#32 (.decode (some b) true)) =
      .next (answered (host true 0#8 0x22#32 (.decode (some b) true)) []
        (.success (.tmFrame f))) := by
  have he := execTmDecode_of_operands (s := host true 0#8 0x22#32 (.decode (some b) true))
    (src := some b) (fout := true) rfl
  rw [h] at he
  exact he

theorem witness_UnexpectedSegmentHeaderBecomesPayload :
    issued (host true 0#8 0x12#32 (.tcEncode (some segG) (some (zeros 10)) true))
      (.tcEncode (some segG) (some (zeros 10)) true) [] ∧ segG.cc = 0#1 ∧
    segG.payload.length ≤ 1023 ∧
    (∃ t, exec .tcEncode (host true 0#8 0x12#32 (.tcEncode (some segG) (some (zeros 10)) true)) =
      .next t ∧ t.delivered = .success (.encoded segGBytes 10) :: []) ∧
    issued (decoding true false (segGBytes.take 10)) (.decode (some (segGBytes.take 10)) true) [] ∧
    issued (decoding false false (segGBytes.take 10)) (.decode (some (segGBytes.take 10)) true) [] :=
  ⟨issued_host .., by decide, by decide, tcEncode_answers (by decide) (by decide +kernel),
    issued_decoding .., issued_decoding ..⟩

theorem createdTc_segF : createdTc true segF :=
  ⟨host true 0#8 0x10#32 (.tcCreate 0x123#16 1#8 42#8 (some (bytes [1, 2])) true), _, rfl, rfl, by
    decide +kernel⟩

theorem createdAndSetTc_segG : createdAndSetTc true segG :=
  ⟨segF, 3#2, 0x45#8, [], host true 0#8 0x11#32 (.tcSetSeg (some segF) 3#2 0x45#8), _,
    createdTc_segF, rfl, issued_host .., rfl, by decide +kernel⟩

theorem witness_TcRoundTripOfCreatedFrame : (createdTc true segF ∧ createdAndSetTc true segG) ∧
    issued (host true 0#8 0x12#32 (.tcEncode (some segG) (some (zeros 10)) true))
      (.tcEncode (some segG) (some (zeros 10)) true) [] ∧
    tcTotalLen segG.payload.length (tcSegPresent true segG.cc) ≤ (zeros 10).length ∧
    issued (decoding true true segGBytes) (.decode (some segGBytes) true) [] :=
  ⟨⟨createdTc_segF, createdAndSetTc_segG⟩, issued_host .., by decide, issued_decoding ..⟩

/-- A frame that no TC_CREATE returns (cc = 1), in a buffer with a byte to spare. -/
theorem witness_TcRoundTripOfAnyFrame : e5.payload.length ≤ 1024 ∧
    issued (host true 0#8 0x12#32 (.tcEncode (some e5) (some (zeros 9)) true))
      (.tcEncode (some e5) (some (zeros 9)) true) [] ∧
    tcTotalLen e5.payload.length (tcSegPresent true e5.cc) ≤ (zeros 9).length ∧
    issued (decoding true true e5Bytes) (.decode (some e5Bytes) true) [] :=
  ⟨by decide, issued_host .., by decide, issued_decoding ..⟩

/-- A frame that decodes, and a flip in its FECF; and the two frames of which the control-command bit's
flip changes the frame's shape: cc = 1 in 7 bytes, cc = 0 in 1032. -/
theorem witness_TcCorruptionIsDetected :
    (exec (.tcDecode true) (decoding true true segGBytes) = .next (answered
      (decoding true true segGBytes) [] (.success (.tcFrame { segG with fecf := 0xEFD5#16 }))) ∧
      9 < segGBytes.length ∧ 0 < 8 ∧ issued (decoding true true (flipBit segGBytes 9 0))
        (.decode (some (flipBit segGBytes 9 0)) true) []) ∧
    (∃ f, exec (.tcDecode true) (decoding true true (sealed (bytes [0x10, 0, 0, 6, 0]))) =
        .next (answered (decoding true true (sealed (bytes [0x10, 0, 0, 6, 0]))) []
          (.success (.tcFrame f))) ∧
      f.cc = 1#1 ∧ (sealed (bytes [0x10, 0, 0, 6, 0])).length = 7) ∧
    (∃ f, exec (.tcDecode true) (decoding true true (sealed (zeros 1030))) =
        .next (answered (decoding true true (sealed (zeros 1030))) [] (.success (.tcFrame f))) ∧
      f.cc = 0#1 ∧ (sealed (zeros 1030)).length = 1032) := by
  refine ⟨⟨tcDecode_answers (by decide +kernel), by decide, by decide, issued_decoding ..⟩,
    ⟨{ zeroTcFrame with cc := 1#1, frameLength := 6#10, fecf := crc16 (bytes [0x10, 0, 0, 6, 0]) },
      tcDecode_answers (by decide +kernel), rfl, rfl⟩, ?_⟩
  have hcc : (byteAt (sealed (zeros 1030)) 0).extractLsb' 4 1 = 0#1 :=
    (parsesSeg_zeros 1029 (be16 (crc16 (zeros 1030)))).2.2
  have hlen : (sealed (zeros 1030)).length = 1032 := by rw [sealed_length, zeros_length]
  have hcrc := sealed_crc (zeros 1030)
  generalize sealed (zeros 1030) = x at hcc hlen hcrc ⊢
  have hd := tcDecode_some true true x 1 (by simp [tcSegParsed, hcc])
  rw [if_neg (by omega), if_neg (by omega), if_neg (by omega), if_neg (by simp [hcrc])] at hd
  exact ⟨_, tcDecode_answers hd, by simp only [tcParseSeg, if_true, tcParseHeader_cc, hcc], hlen⟩

theorem witness_TmCreateCommand :
    (issued (host false 0xFF#8 0x20#32 (.tmCreate 1#16 1#8 (some (zeros 1024)) true))
      (.tmCreate 1#16 1#8 (some (zeros 1024)) true) [] ∧ (zeros 1024).length ≤ 1024) ∧
    (issued (host false 0#8 0x20#32 (.tmCreate 1#16 1#8 (some (zeros 1025)) true))
      (.tmCreate 1#16 1#8 (some (zeros 1025)) true) [] ∧ 1024 < (zeros 1025).length) ∧
    issued (host false 0#8 0x20#32 (.tmCreate 1#16 1#8 none true)) (.tmCreate 1#16 1#8 none true) [] ∧
    (∃ t f, exec .tmCreate (block true 3#8 [createCmd]) = .next t ∧
      t.delivered = .success (.tmFrame f) :: []) :=
  ⟨⟨issued_host .., by simp [zeros_length]⟩, ⟨issued_host .., by simp [zeros_length]⟩,
    issued_host .., _, _, rfl, rfl⟩

/-- The third command of a run, after a success, a read and nothing that loads the counter. -/
theorem witness_SuccessiveCreatesCountUp :
    (∃ t, core.run 2 (block true 0xFF#8 [createCmd, readCmd, createCmd]) = .next t) ∧
    (block true 0xFF#8 [createCmd, readCmd, createCmd]).pending[2]? = some createCmd ∧
    (∀ c' ∈ [createCmd, readCmd], c'.isCntWrite = false) ∧ createCmd.takesCount = true :=
  ⟨exists_next (by decide +kernel), rfl, by decide, by decide⟩

/-- No command between, and the most creations that may stand between: 254. -/
theorem witness_NoTwoCreatesShareACount : createCmd.takesCount = true ∧
    (∃ t, core.run 2 (block true 9#8 [createCmd, createCmd]) = .next t) ∧
    (∀ c' ∈ List.replicate 254 createCmd, c'.isCntWrite = false) ∧
    (List.replicate 254 createCmd).countP Command.takesCount < 255 ∧
    (∃ t, core.run (254 + 2)
      (block true 9#8 (createCmd :: List.replicate 254 createCmd ++ [createCmd])) = .next t) :=
  ⟨by decide, exists_next (by decide +kernel), fun _ h => by rw [List.eq_of_mem_replicate h]; decide,
    by rw [List.countP_replicate]; decide, exists_next (by decide +kernel)⟩

/-- A buffer of exactly the total length, for a short and the longest legal frame; one byte less; an
absent operand; a frame one byte too long. -/
theorem witness_TmEncodeCommand :
    (issued (host true 0#8 0x21#32 (.tmEncode (some t1) (some (zeros 21)) true))
      (.tmEncode (some t1) (some (zeros 21)) true) [] ∧ t1.payload.length ≤ 1024 ∧
      6 + t1.payload.length + 2 ≤ (zeros 21).length) ∧
    (issued (host true 0#8 0x21#32
      (.tmEncode (some { t1 with payload := zeros 1024 }) (some (zeros 1032)) true))
      (.tmEncode (some { t1 with payload := zeros 1024 }) (some (zeros 1032)) true) [] ∧
      ({ t1 with payload := zeros 1024 } : TmFrame).payload.length ≤ 1024 ∧
      6 + ({ t1 with payload := zeros 1024 } : TmFrame).payload.length + 2 ≤ (zeros 1032).length) ∧
    (issued (host true 0#8 0x21#32 (.tmEncode (some t1) (some (zeros 20)) true))
      (.tmEncode (some t1) (some (zeros 20)) true) [] ∧
      (zeros 20).length < tmTotalLen t1.payload.length) ∧
    issued (host true 0#8 0x21#32 (.tmEncode none none true)) (.tmEncode none none true) [] ∧
    (issued (host true 0#8 0x21#32 (.tmEncode (some { t1 with payload := zeros 1025 }) none true))
      (.tmEncode (some { t1 with payload := zeros 1025 }) none true) [] ∧
      1024 < ({ t1 with payload := zeros 1025 } : TmFrame).payload.length) :=
  ⟨⟨issued_host .., by decide, by decide⟩,
    ⟨issued_host .., (zeros_length 1024).le, by simp [zeros_length]⟩,
    ⟨issued_host .., by decide⟩, issued_host .., ⟨issued_host .., by simp [zeros_length]⟩⟩

/-- Lengths 7, 1033, and 8 and 1032 with a wrong and a right FECF. -/
theorem witness_TmDecodeCommand :
    issued (host true 0#8 0x22#32 (.decode none true)) (.decode none true) [] ∧
    (issued (host true 0#8 0x22#32 (.decode (some (zeros 7)) true)) (.decode (some (zeros 7)) true) []
      ∧ (zeros 7).length < 8) ∧
    1032 < (zeros 1033).length ∧
    (spoiled (zeros 6)).length = 8 ∧ (spoiled (zeros 1030)).length = 1032 ∧
    crc16 ((spoiled (zeros 1030)).take ((spoiled (zeros 1030)).length - 2)) ≠
      declaredFecf (spoiled (zeros 1030)) ∧
    (sealed (zeros 6)).length = 8 ∧ (sealed (zeros 1030)).length = 1032 ∧
    crc16 ((sealed (zeros 1030)).take ((sealed (zeros 1030)).length - 2)) =
      declaredFecf (sealed (zeros 1030)) :=
  ⟨issued_host .., ⟨issued_host .., by simp [zeros_length]⟩, by simp [zeros_length],
    by simp [spoiled_length, zeros_length], by simp [spoiled_length, zeros_length], spoiled_crc _,
    by simp [sealed_length, zeros_length], by simp [sealed_length, zeros_length], sealed_crc _⟩

theorem witness_TmRoundTrip : t1.payload.length ≤ 1024 ∧
    issued (host true 0#8 0x21#32 (.tmEncode (some t1) (some (zeros 21)) true))
      (.tmEncode (some t1) (some (zeros 21)) true) [] ∧
    tmTotalLen t1.payload.length ≤ (zeros 21).length ∧
    issued (host true 0#8 0x22#32 (.decode (some tm1Bytes) true)) (.decode (some tm1Bytes) true) [] :=
  ⟨by decide, issued_host .., by decide, issued_host ..⟩

/-- A frame that decodes; the first bit of its header and the last of its FECF. -/
theorem witness_TmCorruptionIsDetected :
    exec .tmDecode (host true 0#8 0x22#32 (.decode (some tm1Bytes) true)) =
      .next (answered (host true 0#8 0x22#32 (.decode (some tm1Bytes) true)) []
        (.success (.tmFrame { t1 with fecf := 0x793B#16 }))) ∧
    (0 < tm1Bytes.length ∧ 7 < 8) ∧ (20 < tm1Bytes.length ∧ 0 < 8) ∧
    issued (host true 0#8 0x22#32 (.decode (some (flipBit tm1Bytes 20 0)) true))
      (.decode (some (flipBit tm1Bytes 20 0)) true) [] :=
  ⟨tmDecode_answers (by decide +kernel), by decide, by decide, issued_host ..⟩

theorem witness_CntReadDeliversCounter :
    issued (host true 7#8 0x30#32 .cntRead) .cntRead [] ∧
    ∃ (t u : State) (v : BitVec 8) (f : TmFrame),
      exec .cntRead (block true 7#8 [readCmd, createCmd]) = .next t ∧
      t.delivered = .success (.value v) :: [] ∧ exec .tmCreate t = .next u ∧
      u.delivered = .success (.tmFrame f) :: t.delivered :=
  ⟨issued_host .., _, _, _, _, rfl, rfl, rfl, rfl⟩

theorem witness_CntWriteLoadsCounter :
    issued (host true 7#8 0x31#32 (.cntWrite 0xFE#8)) (.cntWrite 0xFE#8) [] ∧
    issued (host true 7#8 0x31#32 (.cntWrite 0x00#8)) (.cntWrite 0x00#8) [] ∧
    (∃ t, exec .cntWrite (host true 7#8 0x31#32 (.cntWrite 0x00#8)) = .next t) :=
  ⟨issued_host .., issued_host .., _, rfl⟩

theorem witness_Crc16Completes :
    issued (host true 7#8 0x01#32 (.crc16 [])) (.crc16 []) [] ∧
    issued (host true 7#8 0x01#32 (.crc16 (zeros 1025))) (.crc16 (zeros 1025)) [] :=
  ⟨issued_host .., issued_host ..⟩

end Sys2Proof.Tests
end

/-! SUPPORT. When a command completes (10_state.md R25) and when it has no meaning (60_exceptions.md
R190). -/

namespace Sys2Proof.Machine

/-! ### Completing a command -/

/-- `t` is `s` after its first issued command completed: the command is gone and one more result
record has been delivered (10_state.md R21, R24). -/
def State.CompletesTo (s t : State) : Prop :=
  t.pending = s.pending.tail ∧ ∃ r, t.delivered = r :: s.delivered

theorem State.completesTo_deliver (s : State) (r : ResultRecord) : s.CompletesTo (s.deliver r) :=
  ⟨rfl, r, rfl⟩

theorem State.completesTo_conclude (s : State) (x : Except Failure Results) :
    s.CompletesTo (s.conclude x) := by
  rw [s.conclude_eq]
  exact s.completesTo_deliver _

theorem State.completesTo_concludeEncode (s : State) (dst : Option Bytes)
    (x : Except Failure (Bytes × Nat)) : s.CompletesTo (s.concludeEncode dst x) := by
  refine ⟨s.concludeEncode_pending dst x, ?_⟩
  cases x with
  | ok a => exact ⟨_, rfl⟩
  | error why =>
    obtain ⟨_, hdelivered, _⟩ := s.concludeEncode_error why dst
    exact ⟨_, hdelivered⟩

/-- A command that answers a next state has completed. -/
theorem completesTo_of_exec_next {s t : State} (i : Instr) (h : exec i s = .next t) :
    s.CompletesTo t := by
  cases i with
  | crc16 => obtain ⟨_, _, rfl⟩ := execCrc16_next h; exact s.completesTo_deliver _
  | tcCreate =>
    obtain ⟨_, _, _, _, _, _, rfl⟩ := execTcCreate_next h; exact s.completesTo_conclude _
  | tcSetSeg =>
    obtain ⟨_, _, _, _, _, _, rfl⟩ := execTcSetSeg_next h; exact s.completesTo_conclude _
  | tcEncode =>
    obtain ⟨_, _, _, _, _, rfl⟩ := execTcEncode_next h; exact s.completesTo_concludeEncode _ _
  | tcDecode e => obtain ⟨_, _, _, _, rfl⟩ := execTcDecode_next h; exact s.completesTo_conclude _
  | tmCreate =>
    obtain ⟨_, _, _, _, _, ⟨_, _, rfl⟩ | ⟨_, _, rfl⟩⟩ := execTmCreate_next h
    · exact ⟨rfl, _, rfl⟩
    · exact s.completesTo_deliver _
  | tmEncode =>
    obtain ⟨_, _, _, _, _, rfl⟩ := execTmEncode_next h; exact s.completesTo_concludeEncode _ _
  | tmDecode => obtain ⟨_, _, _, rfl⟩ := execTmDecode_next h; exact s.completesTo_conclude _
  | cntRead => obtain ⟨_, rfl⟩ := execCntRead_next h; exact s.completesTo_deliver _
  | cntWrite => obtain ⟨_, _, rfl⟩ := execCntWrite_next h; exact ⟨rfl, _, rfl⟩

/-! ### Commands without a meaning -/

theorem opc_mem_opcodes (i : Instr) : i.opc ∈ opcodes := by
  cases i <;> simp [Instr.opc, opcodes]

/-- A command is absent from a build exactly by its flag E or as TC_SET_SEG (30_encoding.md R47,
R50). -/
theorem presentIn_eq_false_iff (seg : Bool) (i : Instr) : i.presentIn seg = false ↔
    (i.eBit = 1#1 ∧ (i.opc ≠ 0x13#8 ∨ seg = false)) ∨ (i.opc = 0x11#8 ∧ seg = false) := by
  cases i with
  | tcDecode e => cases e <;> simp [Instr.presentIn, Instr.eBit, Instr.opc]
  | _ => simp [Instr.presentIn, Instr.eBit, Instr.opc]

/-- A word that the decoder rejects makes a command without a meaning, whatever the build. -/
theorem meaningless_of_decode_error {c : Command} {why : DecodeError} (seg : Bool)
    (h : decode c.word = .error why) : c.meaningless seg := by
  unfold Command.meaningless
  obtain hres | hopc | ⟨he, hopc⟩ := decode_error h
  · exact .inr (.inl hres)
  · exact .inl hopc
  · exact .inr (.inr (.inl ⟨he, .inl hopc⟩))

/-- A command whose word decodes has no meaning exactly when it is not well-formed for the build: it
is absent there, a frame operand is too long, or the operand record has another shape. -/
theorem meaningless_iff_of_decode {c : Command} {i : Instr} (seg : Bool)
    (h : decode c.word = .ok i) : c.meaningless seg ↔ i.wf seg c.ops = false := by
  obtain ⟨hres, hopc, he⟩ := decode_ok h
  have hE : eOf c.word = true ↔ i.eBit = 1#1 := by
    rw [← he]
    cases eOf c.word <;> decide
  simp only [Command.meaningless, hres, hopc, hE, shapeOfOpc_opc, opc_mem_opcodes, Instr.wf,
    Bool.and_eq_false_iff, presentIn_eq_false_iff, not_true_eq_false, ne_eq, false_or]
  tauto

/-! ### The step -/

/-- With a command issued, a step refuses it when it has no meaning, and otherwise completes it. -/
theorem step_refuses_or_completes {s : State} {c : Command} {rest : List Command}
    (h : s.pending = c :: rest) :
    (c.meaningless s.segHdr ∧ ∃ r, step s = .refused r) ∨
      (¬ c.meaningless s.segHdr ∧ ∃ t, step s = .next t ∧ s.CompletesTo t) := by
  cases hd : decode c.word with
  | error why =>
    exact .inl ⟨meaningless_of_decode_error _ hd, .illegalWord why, by simp [step, fetch, h, hd]⟩
  | ok i =>
    rw [step_of_decode h hd, meaningless_iff_of_decode _ hd]
    obtain ⟨hwf, t, ht⟩ | ⟨hwf, hr⟩ := exec_completes_or_refuses i h
    · exact .inr ⟨by simp [hwf], t, ht, completesTo_of_exec_next i ht⟩
    · exact .inl ⟨hwf, hr⟩

/-- Settles O4: a step refuses a command without a meaning and completes every other, and no step does
both. -/
theorem commandsCompleteUnlessMeaningless : Obligations.CommandsCompleteUnlessMeaningless := by
  unfold Obligations.CommandsCompleteUnlessMeaningless
  intro s c rest h
  obtain ⟨hm, hr⟩ | ⟨hm, t, ht, hpending, r, hdelivered⟩ := step_refuses_or_completes h
  · exact ⟨iff_of_true hr hm, fun hn => absurd hm hn⟩
  · refine ⟨iff_of_false ?_ hm, fun _ => ⟨t, r, ht, by rw [hpending, h, List.tail_cons], hdelivered⟩⟩
    rintro ⟨r', hr'⟩
    cases ht.symm.trans hr'

end Sys2Proof.Machine

/-! SUPPORT. The reserved command words (30_encoding.md R47 to R50) and the numbers of the sequence
flags (R54). -/

namespace Sys2Proof

/-- The flag that a 2-bit value names has that value as its number, so none of the four values is
reserved (30_encoding.md R54). -/
theorem SeqFlags.code_ofCode (v : BitVec 2) : (SeqFlags.ofCode v).code = v := by
  revert v
  decide

/-- Settles O7: the four numbers are those of the definition, and naming a value and taking
the name's number gives the value back. -/
theorem seqFlagsAreNumberedInOrder : Obligations.SeqFlagsAreNumberedInOrder :=
  ⟨rfl, rfl, rfl, rfl, SeqFlags.code_ofCode⟩

end Sys2Proof

namespace Sys2Proof.Machine

/-- A step refuses a first issued command without a meaning. -/
theorem step_refuses_of_meaningless {s : State} {c : Command} {rest : List Command}
    (h : s.pending = c :: rest) (hm : c.meaningless s.segHdr) : ∃ r, step s = .refused r :=
  ((commandsCompleteUnlessMeaningless s c rest h).1).mpr hm

/-- An opcode value below 256 is one of the ten exactly when it is the number of one of them. -/
theorem mem_range_opcodes_iff (n : Nat) :
    n ∈ (List.range 256).filter (fun n => opcodes.contains (BitVec.ofNat 8 n)) ↔
      n ∈ opcodes.map BitVec.toNat := by
  simp only [List.mem_filter, List.mem_range, List.contains_iff_mem, List.mem_map]
  constructor
  · rintro ⟨hn, hmem⟩
    exact ⟨_, hmem, by simpa using Nat.mod_eq_of_lt hn⟩
  · rintro ⟨opc, hmem, rfl⟩
    exact ⟨opc.isLt, by simpa using hmem⟩

/-- The ten opcodes are different numbers, so 246 of the 256 values are reserved
(30_encoding.md R49). -/
theorem reservedOpcodes_length :
    ((List.range 256).filter fun n => !opcodes.contains (BitVec.ofNat 8 n)).length = 246 := by
  have hused : ((List.range 256).filter fun n => opcodes.contains (BitVec.ofNat 8 n)).length = 10 :=
    ((List.perm_ext_iff_of_nodup (List.nodup_range.filter _) (by decide)).mpr
      mem_range_opcodes_iff).length_eq
  have hall := (List.range 256).length_eq_length_filter_add
    fun n => opcodes.contains (BitVec.ofNat 8 n)
  rw [List.length_range] at hall
  omega

/-- Settles O3: each of the five kinds is one of those without a meaning, which a step refuses. -/
theorem reservedCommandsAreRefused : Obligations.ReservedCommandsAreRefused := by
  unfold Obligations.ReservedCommandsAreRefused
  refine ⟨fun s c rest h hkind => step_refuses_of_meaningless h ?_, reservedOpcodes_length⟩
  unfold Command.meaningless
  obtain hres | hopc | ⟨he, hopc⟩ | ⟨he, hseg⟩ | hsetSeg := hkind
  · exact .inr (.inl hres)
  · exact .inl hopc
  · exact .inr (.inr (.inl ⟨he, .inl hopc⟩))
  · exact .inr (.inr (.inl ⟨he, .inr hseg⟩))
  · exact .inr (.inr (.inr (.inl hsetSeg)))

end Sys2Proof.Machine

/-! SUPPORT. The one word of a command (30_encoding.md R45, R46), the state after a Success, and the
command CRC16 (40_crc.md R81). -/

namespace Sys2Proof

/-- The decoder reads the encoder's word back. -/
@[simp] theorem decode_encode (i : Instr) : decode i.encode = .ok i := by
  cases i with
  | tcDecode e => exact Laws.EncodeDecode.tcDecode e
  | _ => rfl

/-- A word that decodes to a command is the encoder's word for it: its three fields are. -/
theorem eq_encode_of_decode {w : CmdWord} {i : Instr} (h : decode w = .ok i) : w = i.encode := by
  obtain ⟨hres, hopc, he⟩ := decode_ok h
  rw [word_eq_fields w, hres, hopc, he, Instr.encode]

/-- A command has exactly one word: none of its 32 bits is free. -/
theorem hasWord_encode (i : Instr) : Claims.hasWord i i.encode 0xFFFFFFFF#32 := by
  intro w
  rw [show (0xFFFFFFFF#32 : CmdWord) = BitVec.allOnes 32 from rfl, BitVec.and_allOnes]
  exact ⟨eq_encode_of_decode, fun h => h ▸ decode_encode i⟩

end Sys2Proof

namespace Sys2Proof.Machine

/-- The operand record of the command that runs is the one its host issued with it. -/
theorem operands_of_issued {s : State} {ops : Operands} {rest : List Command}
    (h : Claims.issued s ops rest) : s.operands = some ops := by
  obtain ⟨_, hpending⟩ := h
  exact s.operands_of_pending hpending

/-- A command that completes delivers its record, gives way to the next, and changes nothing else. -/
theorem deliver_eq_answered {s : State} {ops : Operands} {rest : List Command}
    (h : Claims.issued s ops rest) (r : ResultRecord) : s.deliver r = Claims.answered s rest r := by
  obtain ⟨_, hpending⟩ := h
  rw [State.deliver, Claims.answered, hpending, List.tail_cons]

/-- CRC16 answers its issued data's CRC, whatever the data's length. -/
theorem exec_crc16_of_issued {s : State} {data : Bytes} {rest : List Command}
    (h : Claims.issued s (.crc16 data) rest) :
    exec .crc16 s = .next (Claims.answered s rest (.success (.crc (crc16 data)))) := by
  rw [← deliver_eq_answered h]
  exact execCrc16_of_operands (operands_of_issued h)

/-- The CRC engine run on the nine characters "123456789" (93_implementation_defined.md K9). -/
theorem crc16_check_value :
    crc16 [0x31#8, 0x32#8, 0x33#8, 0x34#8, 0x35#8, 0x36#8, 0x37#8, 0x38#8, 0x39#8] = 0x29B1#16 := by
  simp [crc16_eq_foldl, crcByte_eq, crcShifts, crcShift, Config.crcPoly]

/-- Settles O26: the word is the encoder's, the answer is that of `exec_crc16_of_issued`, and
the empty data leave the register at its preset. -/
theorem crc16Completes : Obligations.Crc16Completes := by
  unfold Obligations.Crc16Completes
  refine ⟨hasWord_encode .crc16, fun _ _ _ h => exec_crc16_of_issued h, ?_, crc16_check_value⟩
  rw [crc16_eq_foldl, List.foldl_nil]

end Sys2Proof.Machine

/-! SUPPORT. The values of the masks and of the frame lengths (41_primitives.md R90 to R94). -/

namespace Sys2Proof.Machine

/-- Masking is reduction modulo a power of two, whatever the two widths (41_primitives.md R90). -/
@[simp] theorem mask_toNat (n : Nat) {m : Nat} (v : BitVec m) :
    (mask n v).toNat = v.toNat % 2 ^ n := by
  rw [mask, BitVec.truncate_eq_setWidth, BitVec.toNat_setWidth]

/-- The parts of a TC frame: primary header, segment header, payload and FECF. -/
theorem tcTotalLen_eq (p s : Nat) : tcTotalLen p s = 5 + s + p + 2 := by
  rw [tcTotalLen, Config.tcPhLen, Config.fecfLen]

/-- The parts of a TM frame: primary header, payload and FECF. -/
theorem tmTotalLen_eq (p : Nat) : tmTotalLen p = 6 + p + 2 := by
  rw [tmTotalLen, Config.tmPhLen, Config.fecfLen]

/-- What the ten bits of the frame-length field cannot hold of the true value is reduced modulo 1024
(41_primitives.md R93). -/
theorem tcFlField_toNat (p s : Nat) : (tcFlField p s).toNat = (p + s + 6) % 1024 := by
  have htrue : tcTotalLen p s - 1 = p + s + 6 := by
    rw [tcTotalLen_eq]
    omega
  simp only [tcFlField, BitVec.toNat_ofNat, htrue, Nat.reducePow]

/-- Settles O27: the mask's value is the remainder at every pair of widths, so also at N ≤ M. -/
theorem maskKeepsLowBits : Obligations.MaskKeepsLowBits :=
  fun _ n v _ => mask_toNat n v

/-- Settles O29: each length is the sum of its parts, and the ranges are those of the sums. -/
theorem totalLengths : Obligations.TotalLengths := by
  unfold Obligations.TotalLengths
  constructor
  · intro p s hp hs
    rw [tcTotalLen_eq]
    omega
  · intro p hp
    rw [tmTotalLen_eq]
    omega

/-- Settles O30: the field is the true value modulo 1024, at every length, so also at the two past
the threshold that the rule names. -/
theorem frameLengthFieldWraps : Obligations.FrameLengthFieldWraps := by
  unfold Obligations.FrameLengthFieldWraps
  refine ⟨fun p s _ _ => ⟨tcFlField_toNat p s, ?threshold⟩, ?zero, ?seven⟩
  case threshold =>
    rw [tcTotalLen_eq]
    omega
  case zero => exact BitVec.eq_of_toNat_eq (tcFlField_toNat 1018 0)
  case seven => exact BitVec.eq_of_toNat_eq (tcFlField_toNat 1024 1)

end Sys2Proof.Machine

/-! SUPPORT. What a command answers as the record it delivers, and the command TC_CREATE
(42_tc_codec.md R100 to R103). -/

namespace Sys2Proof.Machine

/-! ### The delivered record -/

/-- Two answers to one command are the same state exactly when they deliver the same record. -/
@[simp] theorem answered_inj {s : State} {rest : List Command} {r r' : ResultRecord} :
    Claims.answered s rest r = Claims.answered s rest r' ↔ r = r' := by
  constructor
  · intro h
    have hdelivered : r :: s.delivered = r' :: s.delivered := congrArg State.delivered h
    exact List.head_eq_of_cons_eq hdelivered
  · rintro rfl
    rfl

/-- A command without a DST operand delivers a failure exactly when its computation failed so. -/
@[simp] theorem recordOf_map_eq_failure_iff {α : Type} {x : Except Failure α} {g : α → Results}
    {why : Failure} : recordOf (x.map g) = .failure why none ↔ x = .error why := by
  cases x <;> simp [recordOf, Except.map]

/-! ### TC_CREATE -/

/-- A masked value, written as a remainder (41_primitives.md R90). -/
theorem mask_eq_ofNat (n : Nat) {m : Nat} (v : BitVec m) :
    mask n v = BitVec.ofNat n (v.toNat % 2 ^ n) := by
  apply BitVec.eq_of_toNat_eq
  rw [mask_toNat, BitVec.toNat_ofNat, Nat.mod_mod]

/-- The frame-length field, written as a remainder (41_primitives.md R93). -/
theorem tcFlField_eq_ofNat (p s : Nat) : tcFlField p s = BitVec.ofNat 10 ((p + s + 6) % 1024) := by
  apply BitVec.eq_of_toNat_eq
  rw [tcFlField_toNat, BitVec.toNat_ofNat, Nat.mod_mod]

/-- The frame that TC_CREATE builds is no control command, so it has a segment header in every block
with the feature (41_primitives.md R97). -/
theorem tcSegPresent_of_noControl (seg : Bool) : tcSegPresent seg 0#1 = if seg then 1 else 0 := by
  simp only [tcSegPresent, and_true]

/-- With a frame slot and a legal payload TC_CREATE computes the frame of 42_tc_codec.md R101. -/
theorem tcCreate_of_length_le (seg : Bool) (scid : BitVec 16) (vcid seq : BitVec 8) {p : Bytes}
    (hp : p.length ≤ 1024) :
    tcCreate seg scid vcid seq (some p) true = .ok
      { zeroTcFrame with
        scid := BitVec.ofNat 10 (scid.toNat % 1024)
        vcid := BitVec.ofNat 6 (vcid.toNat % 64)
        frameLength := BitVec.ofNat 10 ((p.length + (if seg then 1 else 0) + 6) % 1024)
        seq := seq
        payload := p } := by
  have hfits : ¬ Config.maxPayload < p.length := Nat.not_lt.mpr hp
  simp only [tcCreate, if_neg hfits, reduceScid, reduceTcVcid, mask_eq_ofNat, tcFlField_eq_ofNat,
    tcSegPresent_of_noControl, Nat.reducePow]

/-- TC_CREATE fails in exactly three cases (42_tc_codec.md R103). -/
theorem tcCreate_error_iff (seg : Bool) (scid : BitVec 16) (vcid seq : BitVec 8)
    (payload : Option Bytes) (fout : Bool) :
    tcCreate seg scid vcid seq payload fout = .error .invalidParameter ↔
      fout = false ∨ payload = none ∨ ∃ p, payload = some p ∧ 1024 < p.length := by
  cases fout with
  | false => simp [tcCreate]
  | true =>
    cases payload with
    | none => simp [tcCreate]
    | some p =>
      by_cases hp : p.length ≤ 1024
      · simp [tcCreate_of_length_le seg scid vcid seq hp, hp]
      · simp [tcCreate, Config.maxPayload, Nat.lt_of_not_le hp]

/-- TC_CREATE delivers what `tcCreate` computes from its issued operands and changes nothing else
(42_tc_codec.md R102). -/
theorem exec_tcCreate_of_issued {s : State} {scid : BitVec 16} {vcid seq : BitVec 8}
    {payload : Option Bytes} {fout : Bool} {rest : List Command}
    (h : Claims.issued s (.tcCreate scid vcid seq payload fout) rest) :
    exec .tcCreate s = .next (Claims.answered s rest
      (recordOf ((tcCreate s.segHdr scid vcid seq payload fout).map .tcFrame))) := by
  rw [← deliver_eq_answered h, ← State.conclude_eq]
  exact execTcCreate_of_operands (operands_of_issued h)

/-- Settles O32: the word is the encoder's, and the delivered record is a frame or a failure as
`tcCreate_of_length_le` and `tcCreate_error_iff` say. -/
theorem tcCreateCommand : Obligations.TcCreateCommand := by
  unfold Obligations.TcCreateCommand
  refine ⟨hasWord_encode .tcCreate, ?success, ?failure⟩
  case success =>
    intro s scid vcid seq p rest h hp
    rw [exec_tcCreate_of_issued h, tcCreate_of_length_le _ _ _ _ hp]
    rfl
  case failure =>
    intro s scid vcid seq payload fout rest h
    rw [exec_tcCreate_of_issued h, Host.Outcome.next.injEq, answered_inj,
      recordOf_map_eq_failure_iff, tcCreate_error_iff]

end Sys2Proof.Machine

/-! SUPPORT. The commands TM_CREATE (43_tm_codec.md R140 to R143) and TM_DECODE (R160 to R164). -/

namespace Sys2Proof.Machine

/-! ### TM_CREATE -/

/-- TM_CREATE computes a frame exactly with a frame slot and a legal payload, and its fields are then
those of 43_tm_codec.md R141. -/
theorem tmCreate_eq_ok_iff {ctr : Count} {scid : BitVec 16} {vcid : BitVec 8}
    {payload : Option Bytes} {fout : Bool} {f : TmFrame} :
    tmCreate ctr scid vcid payload fout = .ok f ↔
      fout = true ∧ ∃ p, payload = some p ∧ p.length ≤ 1024 ∧
        f = { zeroTmFrame with
          scid := BitVec.ofNat 10 (scid.toNat % 1024)
          vcid := BitVec.ofNat 3 (vcid.toNat % 8)
          mcfc := ctr
          segLenId := 0b11#2
          payload := p } := by
  cases fout with
  | false => simp [tmCreate]
  | true =>
    cases payload with
    | none => simp [tmCreate]
    | some p =>
      by_cases hp : p.length ≤ 1024
      · simp [tmCreate, Config.maxPayload, Config.tmSegLenId, reduceScid, reduceTmVcid,
          mask_eq_ofNat, hp, Nat.not_lt.mpr hp, eq_comm]
      · simp [tmCreate, Config.maxPayload, hp, Nat.lt_of_not_le hp]

/-- TM_CREATE fails in exactly three cases (43_tm_codec.md R143). -/
theorem tmCreate_error_iff {ctr : Count} {scid : BitVec 16} {vcid : BitVec 8}
    {payload : Option Bytes} {fout : Bool} :
    tmCreate ctr scid vcid payload fout = .error .invalidParameter ↔
      fout = false ∨ payload = none ∨ ∃ p, payload = some p ∧ 1024 < p.length := by
  cases fout with
  | false => simp [tmCreate]
  | true =>
    cases payload with
    | none => simp [tmCreate]
    | some p =>
      by_cases hp : p.length ≤ 1024
      · simp [tmCreate_eq_ok_iff.mpr ⟨rfl, p, rfl, hp, rfl⟩, hp]
      · simp [tmCreate, Config.maxPayload, Nat.lt_of_not_le hp]

/-- Every frame that TM_CREATE computes has the data-field-status word 0x1800: no segmentation, and
every other bit 0 (30_encoding.md R62). -/
theorem tmStatusWord_of_tmCreate {ctr : Count} {scid : BitVec 16} {vcid : BitVec 8}
    {payload : Option Bytes} {fout : Bool} {f : TmFrame}
    (h : tmCreate ctr scid vcid payload fout = .ok f) : tmStatusWord f = 0x1800#16 := by
  obtain ⟨_, p, _, _, rfl⟩ := tmCreate_eq_ok_iff.mp h
  show (0#1 ++ 0#1 ++ 0#1 ++ 0b11#2 ++ 0#11 : BitVec 16) = 0x1800#16
  decide

/-- The counter's advance, written as a remainder (43_tm_codec.md R142). -/
theorem count_add_one_eq_ofNat (n : Count) : n + 1#8 = BitVec.ofNat 8 ((n.toNat + 1) % 256) := by
  apply BitVec.eq_of_toNat_eq
  simp only [BitVec.toNat_add, BitVec.toNat_ofNat, Nat.reducePow, Nat.reduceMod, Nat.mod_mod]

section
variable {s : State} {scid : BitVec 16} {vcid : BitVec 8} {payload : Option Bytes} {fout : Bool}
  {rest : List Command}

/-- TM_CREATE with a computed frame delivers it and advances the counter. -/
theorem exec_tmCreate_of_ok {f : TmFrame}
    (h : Claims.issued s (.tmCreate scid vcid payload fout) rest)
    (hf : tmCreate s.ctr scid vcid payload fout = .ok f) :
    exec .tmCreate s = .next
      { Claims.answered s rest (.success (.tmFrame f)) with ctr := s.ctr + 1#8 } := by
  rw [← deliver_eq_answered h]
  exact (execTmCreate_of_operands (operands_of_issued h)).trans (by rw [hf]; rfl)

/-- TM_CREATE that fails delivers the failure and leaves the counter. -/
theorem exec_tmCreate_of_error {why : Failure}
    (h : Claims.issued s (.tmCreate scid vcid payload fout) rest)
    (hw : tmCreate s.ctr scid vcid payload fout = .error why) :
    exec .tmCreate s = .next (Claims.answered s rest (.failure why none)) := by
  rw [← deliver_eq_answered h]
  exact (execTmCreate_of_operands (operands_of_issued h)).trans (by rw [hw]; rfl)

/-- TM_CREATE answers a failure exactly when its computation failed so. -/
theorem exec_tmCreate_eq_failure_iff {why : Failure}
    (h : Claims.issued s (.tmCreate scid vcid payload fout) rest) :
    exec .tmCreate s = .next (Claims.answered s rest (.failure why none)) ↔
      tmCreate s.ctr scid vcid payload fout = .error why := by
  refine ⟨fun he => ?_, exec_tmCreate_of_error h⟩
  cases hx : tmCreate s.ctr scid vcid payload fout with
  | ok f =>
    rw [exec_tmCreate_of_ok h hx, Host.Outcome.next.injEq] at he
    cases congrArg State.delivered he
  | error why' =>
    rw [exec_tmCreate_of_error h hx, Host.Outcome.next.injEq, answered_inj] at he
    cases he
    rfl

end

/-- A frame that TM_CREATE delivers is one that its computation gave. -/
theorem tmCreate_of_exec_delivers {s t : State} {f : TmFrame} (h : exec .tmCreate s = .next t)
    (hf : t.delivered = .success (.tmFrame f) :: s.delivered) :
    ∃ scid vcid payload fout, tmCreate s.ctr scid vcid payload fout = .ok f := by
  obtain ⟨scid, vcid, payload, fout, _, ⟨g, hg, rfl⟩ | ⟨why, _, rfl⟩⟩ := execTmCreate_next h
  · cases hf
    exact ⟨scid, vcid, payload, fout, hg⟩
  · cases hf

/-- Settles O40: the word is the encoder's, and the answer follows what `tmCreate` computes, which is
a frame or a failure as `tmCreate_eq_ok_iff` and `tmCreate_error_iff` say. -/
theorem tmCreateCommand : Obligations.TmCreateCommand := by
  unfold Obligations.TmCreateCommand
  refine ⟨hasWord_encode .tmCreate, ?success, ?failure, ?statusWord⟩
  case success =>
    intro s scid vcid p rest h hp
    rw [exec_tmCreate_of_ok h (tmCreate_eq_ok_iff.mpr ⟨rfl, p, rfl, hp, rfl⟩),
      count_add_one_eq_ofNat]
    rfl
  case failure =>
    intro s scid vcid payload fout rest h
    rw [exec_tmCreate_eq_failure_iff h, tmCreate_error_iff]
  case statusWord =>
    intro s t f h hf
    obtain ⟨_, _, _, _, hcreate⟩ := tmCreate_of_exec_delivers h hf
    exact tmStatusWord_of_tmCreate hcreate

/-! ### TM_DECODE -/

/-- TM_DECODE delivers what `tmDecode` computes from its issued operands and changes nothing else, the
counter included (43_tm_codec.md R164). -/
theorem exec_tmDecode_of_issued {s : State} {src : Option Bytes} {fout : Bool}
    {rest : List Command} (h : Claims.issued s (.decode src fout) rest) :
    exec .tmDecode s =
      .next (Claims.answered s rest (recordOf ((tmDecode src fout).map .tmFrame))) := by
  rw [← deliver_eq_answered h, ← State.conclude_eq]
  exact execTmDecode_of_operands (operands_of_issued h)

/-- TM_DECODE with an absent operand fails before it looks at a length. -/
theorem tmDecode_of_absent {src : Option Bytes} {fout : Bool} (h : src = none ∨ fout = false) :
    tmDecode src fout = .error .invalidParameter := by
  obtain rfl | rfl := h
  · rfl
  · cases src <;> rfl

/-- Settles O44: the delivered record is the one that the first check to fail gives, or the frame of
`tmParseHeader_tmReceivedHeader`. -/
theorem tmDecodeCommand : Obligations.TmDecodeCommand := by
  unfold Obligations.TmDecodeCommand
  refine ⟨hasWord_encode .tmDecode, fun s src fout rest h => ⟨fun habsent => ?absent, ?present⟩⟩
  case absent =>
    rw [exec_tmDecode_of_issued h, tmDecode_of_absent habsent]
    rfl
  case present =>
    rintro b rfl rfl
    rw [exec_tmDecode_of_issued h, tmDecode_some]
    refine ⟨fun hshort => ?short, fun hlong => ?long,
      fun hmin hmax (hcrc : _ ≠ declaredFecf b) => ?mismatch,
      fun hmin hmax (hcrc : _ = declaredFecf b) => ?success⟩
    case short =>
      rw [if_pos hshort]
      rfl
    case long =>
      rw [if_neg (by omega), if_pos hlong]
      rfl
    case mismatch =>
      rw [if_neg (by omega), if_neg (by omega), if_pos hcrc]
      rfl
    case success =>
      rw [if_neg (by omega), if_neg (by omega), if_neg (not_not_intro hcrc),
        tmParseHeader_tmReceivedHeader]
      rfl

end Sys2Proof.Machine

/-! SUPPORT. The counter along a run: every command but CNT_WRITE advances it by the count it takes
(10_state.md R12, 43_tm_codec.md R142). -/

namespace Sys2Proof

/-- The commands that take a count: the word of TM_CREATE, a frame slot and a legal payload. -/
theorem Command.takesCount_iff (c : Command) : c.takesCount = true ↔
    decode c.word = .ok .tmCreate ∧
      ∃ scid vcid p, c.ops = .tmCreate scid vcid (some p) true ∧ p.length ≤ 1024 := by
  unfold Command.takesCount
  split
  next scid vcid p hword hops =>
    rw [decide_eq_true_iff]
    refine ⟨fun hp => ⟨hword, scid, vcid, p, hops, hp⟩, ?_⟩
    rintro ⟨_, _, _, _, hops', hp⟩
    cases hops.symm.trans hops'
    exact hp
  next hnot =>
    refine iff_of_false Bool.false_ne_true ?_
    rintro ⟨hword, scid, vcid, p, hops, _⟩
    exact hnot scid vcid p hword hops

/-- A command that is no CNT_WRITE decodes to another command. -/
theorem Command.ne_cntWrite_of_decode {c : Command} {i : Instr} (h : c.isCntWrite = false)
    (hd : decode c.word = .ok i) : i ≠ .cntWrite := by
  rintro rfl
  obtain ⟨_, hopc, _⟩ := decode_ok hd
  simp [Command.isCntWrite, hopc, Instr.opc] at h

end Sys2Proof

namespace Sys2Proof.Machine

variable {s t : State}

@[simp] theorem State.conclude_ctr (s : State) (x : Except Failure Results) :
    (s.conclude x).ctr = s.ctr := by
  rw [State.conclude_eq, State.deliver_ctr]

/-- The counter's writers are TM_CREATE and CNT_WRITE (10_state.md R12). -/
theorem exec_keeps_ctr {i : Instr} (hcreate : i ≠ .tmCreate) (hwrite : i ≠ .cntWrite)
    (h : exec i s = .next t) : t.ctr = s.ctr := by
  cases i with
  | crc16 => obtain ⟨_, _, rfl⟩ := execCrc16_next h; exact s.succeed_ctr _
  | tcCreate => obtain ⟨_, _, _, _, _, _, rfl⟩ := execTcCreate_next h; exact s.conclude_ctr _
  | tcSetSeg => obtain ⟨_, _, _, _, _, _, rfl⟩ := execTcSetSeg_next h; exact s.conclude_ctr _
  | tcEncode => obtain ⟨_, _, _, _, _, rfl⟩ := execTcEncode_next h; exact s.concludeEncode_ctr _ _
  | tcDecode e => obtain ⟨_, _, _, _, rfl⟩ := execTcDecode_next h; exact s.conclude_ctr _
  | tmCreate => exact absurd rfl hcreate
  | tmEncode => obtain ⟨_, _, _, _, _, rfl⟩ := execTmEncode_next h; exact s.concludeEncode_ctr _ _
  | tmDecode => obtain ⟨_, _, _, rfl⟩ := execTmDecode_next h; exact s.conclude_ctr _
  | cntRead => obtain ⟨_, rfl⟩ := execCntRead_next h; exact s.succeed_ctr _
  | cntWrite => exact absurd rfl hwrite

/-- A command that takes a count delivers a frame with the counter's value and advances the
counter. -/
theorem step_of_takesCount {c : Command} {rest : List Command} (h : s.pending = c :: rest)
    (hc : c.takesCount = true) : ∃ f : TmFrame, f.mcfc = s.ctr ∧
      step s = .next
        { Claims.answered s rest (.success (.tmFrame f)) with ctr := s.ctr + 1#8 } := by
  obtain ⟨hword, scid, vcid, p, hops, hp⟩ := c.takesCount_iff.mp hc
  have hissued : Claims.issued s (.tmCreate scid vcid (some p) true) rest :=
    ⟨c.word, by rw [h, ← hops]⟩
  rw [step_of_decode h hword,
    exec_tmCreate_of_ok hissued (tmCreate_eq_ok_iff.mpr ⟨rfl, p, rfl, hp, rfl⟩)]
  exact ⟨_, rfl, rfl⟩

/-- A TM_CREATE that takes no count has failed, so the counter stays (43_tm_codec.md R143). -/
theorem exec_tmCreate_keeps_ctr {c : Command} {rest : List Command} (h : s.pending = c :: rest)
    (hword : decode c.word = .ok .tmCreate) (hc : c.takesCount = false)
    (ht : exec .tmCreate s = .next t) : t.ctr = s.ctr := by
  obtain ⟨scid, vcid, payload, fout, hops, ⟨f, hf, _⟩ | ⟨why, _, rfl⟩⟩ := execTmCreate_next ht
  · obtain ⟨rfl, p, rfl, hp, _⟩ := tmCreate_eq_ok_iff.mp hf
    have hcops : c.ops = .tmCreate scid vcid (some p) true :=
      Option.some.inj ((s.operands_of_pending h).symm.trans hops)
    exact absurd (c.takesCount_iff.mpr ⟨hword, scid, vcid, p, hcops, hp⟩) (by simp [hc])
  · exact s.fail_ctr why

/-- A step over a command that is no CNT_WRITE removes it and advances the counter by the count that
it takes. -/
theorem step_counts {c : Command} {rest : List Command} (h : s.pending = c :: rest)
    (hw : c.isCntWrite = false) (ht : step s = .next t) :
    t.pending = rest ∧ t.ctr = s.ctr + BitVec.ofNat 8 (if c.takesCount then 1 else 0) := by
  cases hc : c.takesCount with
  | true =>
    obtain ⟨f, _, hf⟩ := step_of_takesCount h hc
    cases hf.symm.trans ht
    exact ⟨rfl, rfl⟩
  | false =>
    obtain ⟨hnil, _⟩ | ⟨c', rest', i, hp, hd, he⟩ := step_next ht
    · cases h.symm.trans hnil
    · cases h.symm.trans hp
      have hpending : t.pending = rest := by
        rw [(completesTo_of_exec_next i he).1, h, List.tail_cons]
      have hctr : t.ctr = s.ctr := by
        by_cases hi : i = .tmCreate
        · subst hi
          exact exec_tmCreate_keeps_ctr h hd hc he
        · exact exec_keeps_ctr hi (c.ne_cntWrite_of_decode hw hd) he
      exact ⟨hpending, by simp [hctr]⟩

/-- A run over commands with no CNT_WRITE among them removes them and advances the counter by the
number of counts that they take. -/
theorem run_counts (cs : List Command) {rest : List Command} (h : s.pending = cs ++ rest)
    (hw : ∀ c ∈ cs, c.isCntWrite = false) (ht : core.run cs.length s = .next t) :
    t.pending = rest ∧ t.ctr = s.ctr + BitVec.ofNat 8 (cs.countP Command.takesCount) := by
  induction cs generalizing s with
  | nil =>
    cases ht
    exact ⟨h, by simp⟩
  | cons c cs ih =>
    obtain ⟨m, hm, hrun⟩ := run_next ht
    obtain ⟨hmp, hmc⟩ := step_counts h (hw c List.mem_cons_self) hm
    obtain ⟨hp, hctr⟩ := ih hmp (fun c' hc' => hw c' (List.mem_cons_of_mem c hc')) hrun
    refine ⟨hp, ?_⟩
    rw [hctr, hmc, List.countP_cons, BitVec.ofNat_add]
    ac_rfl

/-- Settles O41: after the `k` commands the counter is the first one plus the counts they took
(`run_counts`), and the next TM_CREATE takes that count (`step_of_takesCount`). -/
theorem successiveCreatesCountUp : Obligations.SuccessiveCreatesCountUp := by
  unfold Obligations.SuccessiveCreatesCountUp
  intro s t k c hrun hk hw hc
  obtain ⟨hlt, hget⟩ := List.getElem?_eq_some_iff.mp hk
  have hlen : (s.pending.take k).length = k := List.length_take_of_le hlt.le
  have hsplit : s.pending = s.pending.take k ++ c :: s.pending.drop (k + 1) := by
    rw [← hget, List.cons_getElem_drop_succ, List.take_append_drop]
  obtain ⟨hp, hctr⟩ := run_counts (s.pending.take k) hsplit hw (hlen.symm ▸ hrun)
  obtain ⟨f, hf, hstep⟩ := step_of_takesCount hp hc
  refine ⟨_, f, hstep, rfl, ?_⟩
  rw [hf, hctr, BitVec.toNat_add, BitVec.toNat_ofNat, Nat.add_mod_mod]

end Sys2Proof.Machine

/-! SUPPORT. The commands CNT_READ and CNT_WRITE (44_counter.md R170, R172). -/

namespace Sys2Proof.Machine

/-! ### CNT_READ -/

/-- CNT_READ delivers the counter and changes nothing else. -/
theorem exec_cntRead_of_issued {s : State} {rest : List Command}
    (h : Claims.issued s .cntRead rest) :
    exec .cntRead s = .next (Claims.answered s rest (.success (.value s.ctr))) := by
  rw [← deliver_eq_answered h]
  exact execCntRead_of_operands (operands_of_issued h)

/-- A value that CNT_READ delivers is the counter, before it and after it. -/
theorem ctr_of_cntRead_delivers {s t : State} {v : BitVec 8} (h : exec .cntRead s = .next t)
    (hv : t.delivered = .success (.value v) :: s.delivered) : t.ctr = v := by
  obtain ⟨_, rfl⟩ := execCntRead_next h
  cases hv
  exact s.succeed_ctr _

/-- A frame that TM_CREATE delivers carries the counter before it (43_tm_codec.md R141). -/
theorem mcfc_of_tmCreate_delivers {s t : State} {f : TmFrame} (h : exec .tmCreate s = .next t)
    (hf : t.delivered = .success (.tmFrame f) :: s.delivered) : f.mcfc = s.ctr := by
  obtain ⟨_, _, _, _, hcreate⟩ := tmCreate_of_exec_delivers h hf
  obtain ⟨_, _, _, _, rfl⟩ := tmCreate_eq_ok_iff.mp hcreate
  rfl

/-- Settles O47: the word is the encoder's, and the counter that CNT_READ delivers and leaves is the
one that the next TM_CREATE puts into its frame (`mcfc_of_tmCreate_delivers`). -/
theorem cntReadDeliversCounter : Obligations.CntReadDeliversCounter := by
  unfold Obligations.CntReadDeliversCounter
  refine ⟨hasWord_encode .cntRead, fun _ _ h => exec_cntRead_of_issued h, rfl, ?_⟩
  intro s t u v f hread hv hcreate hf
  calc f.mcfc
    _ = t.ctr := mcfc_of_tmCreate_delivers hcreate hf
    _ = v := ctr_of_cntRead_delivers hread hv

/-! ### CNT_WRITE -/

/-- CNT_WRITE answers Success without a result, loads the counter and changes nothing else. -/
theorem exec_cntWrite_of_issued {s : State} {v : BitVec 8} {rest : List Command}
    (h : Claims.issued s (.cntWrite v) rest) :
    exec .cntWrite s = .next { Claims.answered s rest (.success .none) with ctr := v } := by
  rw [← deliver_eq_answered h]
  exact execCntWrite_of_operands (operands_of_issued h)

/-- Settles O48: the word is the encoder's, and the answer is that of `exec_cntWrite_of_issued`, which
for 0x00 leaves the counter's reset value. -/
theorem cntWriteLoadsCounter : Obligations.CntWriteLoadsCounter := by
  unfold Obligations.CntWriteLoadsCounter
  refine ⟨hasWord_encode .cntWrite, fun _ _ _ h => exec_cntWrite_of_issued h, ?_⟩
  intro s t rest h ht
  cases (exec_cntWrite_of_issued h).symm.trans ht
  rfl

end Sys2Proof.Machine

/-! SUPPORT. What a command that fails leaves behind (60_exceptions.md R186). -/

namespace Sys2Proof.Machine

variable {s t : State} {why : Failure} {dst' : Option Bytes}

/-- A command without a DST operand that delivers a failure has changed nothing else. -/
theorem conclude_eq_fail_of_delivers {x : Except Failure Results}
    (h : (s.conclude x).delivered = .failure why dst' :: s.delivered) :
    s.conclude x = s.fail why := by
  cases x with
  | ok r => cases h
  | error why' =>
    cases h
    exact s.conclude_error _

/-- An encode command that delivers a failure had its computation fail so. -/
theorem eq_error_of_concludeEncode_delivers {dst : Option Bytes} {x : Except Failure (Bytes × Nat)}
    (h : (s.concludeEncode dst x).delivered = .failure why dst' :: s.delivered) :
    x = .error why := by
  cases x with
  | ok a => cases h
  | error why' =>
    obtain ⟨_, hdelivered, _⟩ := s.concludeEncode_error why' dst
    cases hdelivered.symm.trans h
    rfl

/-- Every command that delivers a failure completes as an encode command with its operand DST does;
one without that operand completes as if it were absent. -/
theorem eq_concludeEncode_error_of_exec_delivers {i : Instr} (h : exec i s = .next t)
    (hf : t.delivered = .failure why dst' :: s.delivered) :
    ∃ ops, s.operands = some ops ∧ t = s.concludeEncode ops.dst (.error why) := by
  cases i with
  | crc16 =>
    obtain ⟨_, _, rfl⟩ := execCrc16_next h
    cases hf
  | tcCreate =>
    obtain ⟨_, _, _, _, _, hops, rfl⟩ := execTcCreate_next h
    exact ⟨_, hops, conclude_eq_fail_of_delivers hf⟩
  | tcSetSeg =>
    obtain ⟨_, _, _, hops, _, _, rfl⟩ := execTcSetSeg_next h
    exact ⟨_, hops, conclude_eq_fail_of_delivers hf⟩
  | tcEncode =>
    obtain ⟨_, dst, _, hops, _, rfl⟩ := execTcEncode_next h
    exact ⟨_, hops, congrArg (s.concludeEncode dst) (eq_error_of_concludeEncode_delivers hf)⟩
  | tcDecode e =>
    obtain ⟨_, _, hops, _, rfl⟩ := execTcDecode_next h
    exact ⟨_, hops, conclude_eq_fail_of_delivers hf⟩
  | tmCreate =>
    obtain ⟨_, _, _, _, hops, ⟨_, _, rfl⟩ | ⟨_, _, rfl⟩⟩ := execTmCreate_next h
    · cases hf
    · cases hf
      exact ⟨_, hops, rfl⟩
  | tmEncode =>
    obtain ⟨_, dst, _, hops, _, rfl⟩ := execTmEncode_next h
    exact ⟨_, hops, congrArg (s.concludeEncode dst) (eq_error_of_concludeEncode_delivers hf)⟩
  | tmDecode =>
    obtain ⟨_, _, hops, rfl⟩ := execTmDecode_next h
    exact ⟨_, hops, conclude_eq_fail_of_delivers hf⟩
  | cntRead =>
    obtain ⟨_, rfl⟩ := execCntRead_next h
    cases hf
  | cntWrite =>
    obtain ⟨_, _, rfl⟩ := execCntWrite_next h
    cases hf

/-- Settles O15: a failure is that of an encode command with the issued DST
(`eq_concludeEncode_error_of_exec_delivers`), and such a failure changes neither CTR nor the build
parameter and delivers a DST' of DST's length (`State.concludeEncode_error`). -/
theorem failureLeavesNothingBehind : Obligations.FailureLeavesNothingBehind := by
  unfold Obligations.FailureLeavesNothingBehind
  intro i s t ops rest why dst' hissued h hf
  obtain ⟨ops', hops', rfl⟩ := eq_concludeEncode_error_of_exec_delivers h hf
  obtain rfl : ops' = ops := Option.some.inj (hops'.symm.trans (operands_of_issued hissued))
  obtain ⟨dst'', hdelivered, hlength⟩ := s.concludeEncode_error why ops'.dst
  obtain rfl : dst'' = dst' := by
    cases hdelivered.symm.trans hf
    rfl
  obtain ⟨_, hpending⟩ := hissued
  refine ⟨s.concludeEncode_ctr _ _, s.concludeEncode_segHdr _ _, ?_, hlength⟩
  rw [State.concludeEncode_pending, hpending, List.tail_cons]

end Sys2Proof.Machine

/-! SUPPORT. The state after reset (70_reset_and_hazards.md R200). -/

namespace Sys2Proof.Machine

/-- The counter's value at reset, in numerals. -/
@[simp] theorem State.reset_ctr : State.reset.ctr = 0x00#8 := rfl

/-- Settles O8: the counter is at `Config.ctrReset`, and the core takes its reset state from the
machine. -/
theorem resetCounterIsZero : Obligations.ResetCounterIsZero := by
  unfold Obligations.ResetCounterIsZero
  exact ⟨State.reset_ctr, rfl⟩

end Sys2Proof.Machine

/-! SUPPORT. Decode and encode agree (30_encoding.md sections A.1 and A.3), and the assembler's names and
lines (section A.4). -/

namespace Sys2Proof

/-- Settles O2: a word that decodes is the encoder's (`eq_encode_of_decode`), whose word is read back
(`decode_encode`). -/
theorem decodeIffEncode : Obligations.DecodeIffEncode := by
  unfold Obligations.DecodeIffEncode
  intro w i
  constructor
  · exact eq_encode_of_decode
  · rintro rfl
    exact decode_encode i

/-- Settles O1: each word written out is the encoder's word for its command. -/
theorem tableWordsDecode : Obligations.TableWordsDecode :=
  ⟨decode_encode .crc16, decode_encode .tcCreate, decode_encode .tcSetSeg, decode_encode .tcEncode,
    decode_encode (.tcDecode false), decode_encode (.tcDecode true), decode_encode .tmCreate,
    decode_encode .tmEncode, decode_encode .tmDecode, decode_encode .cntRead,
    decode_encode .cntWrite⟩

/-- Settles O5: the list holds the command, and no name before it in the list is its own. -/
theorem assemblerNamesAreUnambiguous : Obligations.AssemblerNamesAreUnambiguous := by
  unfold Obligations.AssemblerNamesAreUnambiguous
  intro i
  cases i with
  | tcDecode e => cases e <;> simp [assemble, allCommands, Instr.asmName]
  | _ => simp [assemble, allCommands, Instr.asmName]

end Sys2Proof

namespace Sys2Proof.Machine

/-- The operand record of a line has the shape of the line's command: where all parts of an arm are
there, the arm builds the record of its own constructor. -/
theorem fits_of_lineOperands {fs : AsmFrames} {i : Instr} {args : List AsmArg}
    {out : Option AsmSlot} {ops : Operands} (h : lineOperands fs i args out = some ops) :
    i.fits ops = true := by
  unfold lineOperands at h
  split at h
  all_goals simp only [Option.pure_def, Option.bind_eq_bind, Option.bind_eq_some_iff,
    Option.some.injEq, reduceCtorEq] at h
  all_goals grind [Instr.fits]

/-- Settles O6: the command is the encoder's word for the mnemonic's command with the line's operand
record, which has its shape (`fits_of_lineOperands`). -/
theorem everyLineIsOneCommand : Obligations.EveryLineIsOneCommand := by
  unfold Obligations.EveryLineIsOneCommand
  intro fs l c h
  simp only [assembleLine, Option.pure_def, Option.bind_eq_bind, Option.bind_eq_some_iff,
    Option.some.injEq] at h
  obtain ⟨i, hname, ops, hops, rfl⟩ := h
  exact ⟨i, hname, decode_encode i, fits_of_lineOperands hops⟩

/-! ### The step -/

/-- Settles O10: with a command issued the step looks at its word first. -/
theorem stepRunsDecodedCommand : Obligations.StepRunsDecodedCommand := by
  unfold Obligations.StepRunsDecodedCommand
  intro s c rest h
  refine ⟨fun i hd => step_of_decode h hd, fun why hd => ?_⟩
  simp [step, fetch, h, hd]

/-- Settles O11: without a command there is no word to fetch. -/
theorem blockWaitsWithoutCommand : Obligations.BlockWaitsWithoutCommand := by
  unfold Obligations.BlockWaitsWithoutCommand
  intro s h
  simp [step, fetch, h, idle]

end Sys2Proof.Machine

/-! SUPPORT. The CRC as the last check of a frame: its residue, every changed bit, and the polynomial
remainder it computes (40_crc.md). -/

namespace Sys2Proof.Machine

/-! ### The residue (40_crc.md R83) -/

@[simp] theorem crcShifts_zero (k : Nat) : crcShifts k 0#16 = 0#16 := by
  simpa using crcShifts_xor k 0#16 0#16

/-- Two bytes through the register are one 16-bit value through sixteen shifts: the low byte comes up
into the high half in the first eight. -/
theorem foldl_crcByte_be16 (c v : BitVec 16) :
    (be16 v).foldl crcByte c = crcShifts 8 (crcShifts 8 (c ^^^ v)) := by
  have hlow : (v.extractLsb' 0 8 ++ 0#8 : BitVec 16) = crcShifts 8 (0#8 ++ v.extractLsb' 0 8) :=
    (crcShifts_low_byte _).symm
  have hv : (v.extractLsb' 8 8 ++ 0#8 : BitVec 16) ^^^ (0#8 ++ v.extractLsb' 0 8) = v := by
    rw [BitVec.xor_append]
    simpa [join16] using join16_be16 v
  rw [be16, List.foldl_cons, List.foldl_cons, List.foldl_nil, crcByte_eq, crcByte_eq, hlow,
    ← crcShifts_xor, BitVec.xor_assoc, hv]

/-- A sequence with two bytes after it has CRC 0 exactly when they are its CRC. -/
theorem crc16_append_be16_eq_zero_iff (d : Bytes) (v : BitVec 16) :
    crc16 (d ++ be16 v) = 0#16 ↔ crc16 d = v := by
  rw [crc16_append, foldl_crcByte_be16, ← BitVec.xor_eq_zero_iff (x := crc16 d)]
  constructor
  · exact fun h => crcShifts_eq_zero (crcShifts_eq_zero h)
  · intro h
    rw [h, crcShifts_zero, crcShifts_zero]

/-- Settles O23: the two bytes are the sequence's CRC. -/
theorem crcResidueIsZero : Obligations.CrcResidueIsZero := by
  unfold Obligations.CrcResidueIsZero
  exact fun d => (crc16_append_be16_eq_zero_iff d _).mpr rfl

/-- Settles O22: no byte leaves the preset. -/
theorem crcOfEmptySpanIsPreset : Obligations.CrcOfEmptySpanIsPreset := by
  unfold Obligations.CrcOfEmptySpanIsPreset
  exact ⟨crc16_eq_foldl [], rfl⟩

/-! ### Changed bits (40_crc.md R84) -/

/-- Changing bit `k` changes the byte. -/
theorem xor_bit_ne (x : Byte) {k : Nat} (hk : k < 8) : x ^^^ (1#8 <<< k) ≠ x := by
  intro h
  have hbit := congrArg (fun y : Byte => y.getLsbD k) h
  simp [hk] at hbit

@[simp] theorem flipBit_length (d : Bytes) (i k : Nat) : (flipBit d i k).length = d.length :=
  List.length_modify ..

/-- Settles O24: the changed sequence differs in one byte (`crc16_ne_of_byte_ne`). -/
theorem crcSeesEverySingleBit : Obligations.CrcSeesEverySingleBit := by
  unfold Obligations.CrcSeesEverySingleBit
  intro d i k hi hk
  have hsplit : d = d.take i ++ d[i] :: d.drop (i + 1) := by
    rw [List.cons_getElem_drop_succ, List.take_append_drop]
  have hflip : flipBit d i k = d.take i ++ (d[i] ^^^ (1#8 <<< k)) :: d.drop (i + 1) :=
    List.modify_eq_take_cons_drop hi
  have hne := crc16_ne_of_byte_ne (d.take i) (d.drop (i + 1)) (xor_bit_ne d[i] hk)
  rwa [← hflip, ← hsplit] at hne

/-! ### The polynomial remainder (40_crc.md section 1) -/

section Remainder
open Polynomial Claims

/-- The CRC polynomial x^16 + x^12 + x^5 + 1 over GF(2). -/
noncomputable def crcModulus : (ZMod 2)[X] := X ^ 16 + X ^ 12 + X ^ 5 + 1

theorem crcModulus_monic : crcModulus.Monic := by
  unfold crcModulus
  monicity!

theorem crcModulus_natDegree : crcModulus.natDegree = 16 := by
  unfold crcModulus
  compute_degree!

/-- The coefficients of a bit vector's polynomial are its bits. -/
theorem coeff_bitsPoly {n : Nat} (v : BitVec n) (i : Nat) :
    (bitsPoly v).coeff i = if v.getLsbD i then 1 else 0 := by
  rw [bitsPoly, finsetSum_coeff]
  have hterm (j : Nat) : (if v.getLsbD j then X ^ j else 0 : (ZMod 2)[X]).coeff i =
      if i = j then (if v.getLsbD i then 1 else 0) else 0 := by
    split <;> split <;> simp_all [coeff_X_pow]
  simp only [hterm, Finset.sum_ite_eq, Finset.mem_range]
  split
  · rfl
  · rw [BitVec.getLsbD_of_ge v i (by omega)]
    rfl

theorem bitsPoly_degree_lt (c : BitVec 16) : (bitsPoly c).degree < crcModulus.degree := by
  rw [degree_eq_natDegree crcModulus_monic.ne_zero, crcModulus_natDegree, degree_lt_iff_coeff_zero]
  intro i hi
  simp [coeff_bitsPoly, BitVec.getLsbD_of_ge c i hi]

/-- The polynomial of the bits is additive: addition over GF(2) is exclusive or. -/
theorem bitsPoly_xor {n : Nat} (a b : BitVec n) : bitsPoly (a ^^^ b) = bitsPoly a + bitsPoly b := by
  ext i
  rw [coeff_add, coeff_bitsPoly, coeff_bitsPoly, coeff_bitsPoly, BitVec.getLsbD_xor]
  cases a.getLsbD i <;> cases b.getLsbD i <;> simp [CharTwo.add_self_eq_zero]

/-- A byte in the high half of the register stands eight powers higher. -/
theorem bitsPoly_append_zero (b : Byte) : bitsPoly (b ++ 0#8 : BitVec 16) = bitsPoly b * X ^ 8 := by
  ext i
  rw [coeff_mul_X_pow', coeff_bitsPoly, coeff_bitsPoly, BitVec.getLsbD_append]
  by_cases hi : i < 8
  · simp [hi, Nat.not_le.mpr hi]
  · simp [hi, Nat.le_of_not_lt hi]

/-- A left shift multiplies by x, but for the top bit, which it loses. -/
theorem bitsPoly_shiftLeft_one (c : BitVec 16) :
    bitsPoly (c <<< 1) + (if c.getLsbD 15 then X ^ 16 else 0) = bitsPoly c * X := by
  ext i
  cases i with
  | zero => cases c.getLsbD 15 <;> simp [coeff_bitsPoly]
  | succ i =>
    rw [coeff_mul_X, coeff_add, coeff_bitsPoly, coeff_bitsPoly, BitVec.getLsbD_shiftLeft]
    by_cases hi : i = 15
    · subst hi
      cases c.getLsbD 15 <;> simp
    · have htop : (if c.getLsbD 15 then X ^ 16 else 0 : (ZMod 2)[X]).coeff (i + 1) = 0 := by
        split <;> simp [coeff_X_pow, hi]
      rw [htop, add_zero]
      by_cases hlt : i < 15
      · simp [show i + 1 < 16 by omega]
      · simp [BitVec.getLsbD_of_ge c i (by omega)]

/-- CRC_POLY holds the modulus but for its leading term. -/
theorem bitsPoly_crcPoly : bitsPoly Config.crcPoly + X ^ 16 = crcModulus := by
  have hbits : bitsPoly Config.crcPoly = 1 + X ^ 5 + X ^ 12 := by
    simp [bitsPoly, Finset.sum_range_succ, Config.crcPoly]
  rw [hbits, crcModulus]
  ring

/-- One shift of the register multiplies by x modulo the CRC polynomial. -/
theorem mk_bitsPoly_crcShift (c : BitVec 16) :
    AdjoinRoot.mk crcModulus (bitsPoly (crcShift c)) =
      AdjoinRoot.mk crcModulus (bitsPoly c * X) := by
  rw [← bitsPoly_shiftLeft_one]
  unfold crcShift
  cases c.getLsbD 15 with
  | false => simp
  | true =>
    rw [if_pos rfl, if_pos rfl, bitsPoly_xor, AdjoinRoot.mk_eq_mk, ← bitsPoly_crcPoly]
    rw [add_sub_add_left_eq_sub, CharTwo.sub_eq_add]

theorem mk_bitsPoly_crcShifts (k : Nat) (c : BitVec 16) :
    AdjoinRoot.mk crcModulus (bitsPoly (crcShifts k c)) =
      AdjoinRoot.mk crcModulus (bitsPoly c * X ^ k) := by
  induction k generalizing c with
  | zero => simp [crcShifts]
  | succ k ih =>
    rw [crcShifts, ih, map_mul, mk_bitsPoly_crcShift, ← map_mul, mul_assoc, ← pow_succ']

/-- The register after a byte sequence, modulo the CRC polynomial: each byte comes in eight powers
above the register's low byte, and eight shifts follow it. -/
theorem mk_bitsPoly_foldl_crcByte (d : Bytes) (c : BitVec 16) :
    AdjoinRoot.mk crcModulus (bitsPoly (d.foldl crcByte c)) =
      AdjoinRoot.mk crcModulus (bytesPoly d * X ^ 16 + bitsPoly c * X ^ (8 * d.length)) := by
  induction d generalizing c with
  | nil => simp [bytesPoly]
  | cons b d ih =>
    rw [List.foldl_cons, ih, map_add, map_mul _ (bitsPoly (crcByte c b)), crcByte_eq,
      mk_bitsPoly_crcShifts, bitsPoly_xor, bitsPoly_append_zero, ← map_mul, ← map_add, bytesPoly,
      List.length_cons]
    refine congrArg _ ?_
    ring

/-- Settles O25: the register's polynomial is congruent to the dividend
(`mk_bitsPoly_foldl_crcByte`) and of smaller degree than the divisor, so it is the remainder. -/
theorem crcIsPolynomialRemainder : Obligations.CrcIsPolynomialRemainder := by
  unfold Obligations.CrcIsPolynomialRemainder
  intro d
  rw [← crcModulus]
  have hcongr := mk_bitsPoly_foldl_crcByte d 0xFFFF#16
  rw [← crc16_eq_foldl, AdjoinRoot.mk_eq_mk] at hcongr
  rw [← (modByMonic_eq_self_iff crcModulus_monic).mpr (bitsPoly_degree_lt (crc16 d))]
  exact modByMonic_eq_of_dvd_sub crcModulus_monic hcongr

end Remainder

end Sys2Proof.Machine

/-! SUPPORT. Two bytes and their 16-bit value (41_primitives.md R96), and the identities of the lengths
(R98). -/

namespace Sys2Proof.Machine

/-- Settles O28: the high byte is the quotient, the low byte the remainder, and `join16_be16` puts them
together again. -/
theorem joinInvertsBe16 : Obligations.JoinInvertsBe16 := by
  unfold Obligations.JoinInvertsBe16
  refine fun v => ⟨?_, join16_be16 v⟩
  have hhigh : v.toNat / 256 % 256 = v.toNat / 256 := Nat.mod_eq_of_lt (by omega)
  simp [be16, BitVec.extractLsb'_toNat, Nat.shiftRight_eq_div_pow, hhigh]

theorem tcRxPayloadLen_tcTotalLen (p s : Nat) : tcRxPayloadLen (tcTotalLen p s) s = p := by
  simp only [tcRxPayloadLen, tcTotalLen]
  omega

theorem tmRxPayloadLen_tmTotalLen (p : Nat) : tmRxPayloadLen (tmTotalLen p) = p := by
  simp only [tmRxPayloadLen, tmTotalLen]
  omega

/-- Settles O31: receiving undoes what sending adds, and the frame-length field is the true value as
long as that value is below 1024. -/
theorem lengthIdentities : Obligations.LengthIdentities := by
  unfold Obligations.LengthIdentities
  intro p s hp hs
  refine ⟨tcRxPayloadLen_tcTotalLen p s, tmRxPayloadLen_tmTotalLen p, ?_⟩
  rw [tcFlField_toNat, tcTotalLen_eq]
  omega

end Sys2Proof.Machine

/-! SUPPORT. The commands TC_ENCODE (42_tc_codec.md R120 to R124) and TM_ENCODE (43_tm_codec.md R150 to
R153): the bytes they write and their failures. -/

namespace Sys2Proof.Machine

/-! ### Completing an encode command -/

section
variable {s : State} {ops : Operands} {rest : List Command} {dst : Option Bytes}

/-- An encode command that computed its bytes answers them and changes nothing else. -/
theorem concludeEncode_ok_eq_answered (h : Claims.issued s ops rest) (d : Bytes) (n : Nat) :
    s.concludeEncode dst (.ok (d, n)) = Claims.answered s rest (.success (.encoded d n)) := by
  rw [State.concludeEncode_ok, ← deliver_eq_answered h]
  rfl

/-- An encode command that delivers bytes computed them. -/
theorem eq_ok_of_concludeEncode_delivers {x : Except Failure (Bytes × Nat)} {d : Bytes} {n : Nat}
    (h : (s.concludeEncode dst x).delivered = .success (.encoded d n) :: s.delivered) :
    x = .ok (d, n) := by
  cases x with
  | ok a =>
    cases h
    rfl
  | error why =>
    obtain ⟨_, hdelivered, _⟩ := s.concludeEncode_error why dst
    cases hdelivered.symm.trans h

/-- An encode command answers a failure exactly when its computation failed so. -/
theorem failsWithDst_concludeEncode_iff (h : Claims.issued s ops rest) (why : Failure)
    (x : Except Failure (Bytes × Nat)) :
    Claims.failsWithDst s rest (.next (s.concludeEncode dst x)) why dst ↔ x = .error why := by
  constructor
  · rintro ⟨t, dst', ht, _, _, _, hdelivered, _⟩
    cases ht
    exact eq_error_of_concludeEncode_delivers hdelivered
  · rintro rfl
    obtain ⟨dst', hdelivered, hlength⟩ := s.concludeEncode_error why dst
    obtain ⟨_, hpending⟩ := h
    refine ⟨_, dst', rfl, s.concludeEncode_ctr _ _, s.concludeEncode_segHdr _ _, ?_, hdelivered,
      hlength⟩
    rw [State.concludeEncode_pending, hpending, List.tail_cons]

end

/-! ### What an encode command computes -/

section
variable {α : Type} {enc : α → Bytes} {frame : Option α} {dst : Option Bytes} {lout : Bool}

/-- The two encode commands compute alike, with the frame's bytes `enc`: DST' and LEN, or the failure
of the presence check or of the capacity check (60_exceptions.md R187). -/
def encodeWith (enc : α → Bytes) (frame : Option α) (dst : Option Bytes) (lout : Bool) :
    Except Failure (Bytes × Nat) :=
  match frame, dst, lout with
  | some f, some d, true =>
    if d.length < (enc f).length then .error .bufferTooSmall
    else .ok (enc f ++ d.drop (enc f).length, (enc f).length)
  | _, _, _ => .error .invalidParameter

theorem encodeWith_of_absent (h : frame = none ∨ dst = none ∨ lout = false) :
    encodeWith enc frame dst lout = .error .invalidParameter := by
  obtain rfl | rfl | rfl := h
  · rfl
  · cases frame <;> rfl
  · cases frame <;> cases dst <;> rfl

theorem encodeWith_of_short {f : α} {d : Bytes} (h : d.length < (enc f).length) :
    encodeWith enc (some f) (some d) true = .error .bufferTooSmall := if_pos h

theorem encodeWith_of_room {f : α} {d : Bytes} (h : (enc f).length ≤ d.length) :
    encodeWith enc (some f) (some d) true =
      .ok (enc f ++ d.drop (enc f).length, (enc f).length) := if_neg (Nat.not_lt.mpr h)

/-- The operands of an encode command fail one of the two checks, or neither. -/
theorem encodeWith_cases (enc : α → Bytes) (frame : Option α) (dst : Option Bytes) (lout : Bool) :
    (frame = none ∨ dst = none ∨ lout = false) ∨
    ∃ f d, frame = some f ∧ dst = some d ∧ lout = true ∧
      (d.length < (enc f).length ∨ (enc f).length ≤ d.length) := by
  cases frame with
  | none => exact .inl (.inl rfl)
  | some f =>
    cases dst with
    | none => exact .inl (.inr (.inl rfl))
    | some d =>
      cases lout with
      | false => exact .inl (.inr (.inr rfl))
      | true => exact .inr ⟨f, d, rfl, rfl, rfl, Nat.lt_or_ge _ _⟩

/-- An encode command fails its presence check exactly when an operand is absent. -/
theorem encodeWith_eq_invalidParameter_iff :
    encodeWith enc frame dst lout = .error .invalidParameter ↔
      frame = none ∨ dst = none ∨ lout = false := by
  refine ⟨fun h => ?_, encodeWith_of_absent⟩
  obtain habsent | ⟨f, d, rfl, rfl, rfl, hshort | hroom⟩ := encodeWith_cases enc frame dst lout
  · exact habsent
  · cases (encodeWith_of_short hshort).symm.trans h
  · cases (encodeWith_of_room hroom).symm.trans h

/-- An encode command fails its capacity check exactly when all operands are present and the buffer is
short. -/
theorem encodeWith_eq_bufferTooSmall_iff :
    encodeWith enc frame dst lout = .error .bufferTooSmall ↔
      ∃ f d, frame = some f ∧ dst = some d ∧ lout = true ∧ d.length < (enc f).length := by
  refine ⟨fun h => ?_, ?_⟩
  · obtain habsent | ⟨f, d, rfl, rfl, rfl, hshort | hroom⟩ := encodeWith_cases enc frame dst lout
    · cases (encodeWith_of_absent habsent).symm.trans h
    · exact ⟨f, d, rfl, rfl, rfl, hshort⟩
    · cases (encodeWith_of_room hroom).symm.trans h
  · rintro ⟨f, d, rfl, rfl, rfl, hshort⟩
    exact encodeWith_of_short hshort

/-- An encode command's two checks give its only failures. -/
theorem encodeWith_error {why : Failure} (h : encodeWith enc frame dst lout = .error why) :
    why = .invalidParameter ∨ why = .bufferTooSmall := by
  obtain habsent | ⟨f, d, rfl, rfl, rfl, hshort | hroom⟩ := encodeWith_cases enc frame dst lout
  · cases (encodeWith_of_absent habsent).symm.trans h
    exact .inl rfl
  · cases (encodeWith_of_short hshort).symm.trans h
    exact .inr rfl
  · cases (encodeWith_of_room hroom).symm.trans h

/-- What an encode command computes: the frame's bytes in front of the buffer's tail, and their
number. -/
theorem encodeWith_eq_ok {d' : Bytes} {n : Nat} (h : encodeWith enc frame dst lout = .ok (d', n)) :
    ∃ f tail, frame = some f ∧ n = (enc f).length ∧ d' = enc f ++ tail := by
  obtain habsent | ⟨f, d, rfl, rfl, rfl, hshort | hroom⟩ := encodeWith_cases enc frame dst lout
  · cases (encodeWith_of_absent habsent).symm.trans h
  · cases (encodeWith_of_short hshort).symm.trans h
  · cases (encodeWith_of_room hroom).symm.trans h
    exact ⟨f, _, rfl, rfl, rfl⟩

end

theorem tcEncode_eq_encodeWith (seg : Bool) (frame : Option TcFrame) (dst : Option Bytes)
    (lout : Bool) : tcEncode seg frame dst lout = encodeWith (tcEncodeFrame seg) frame dst lout := by
  cases frame with
  | none => rfl
  | some f =>
    cases dst with
    | none => rfl
    | some d =>
      cases lout with
      | false => rfl
      | true =>
        have hlength := tcEncodeFrame_length seg f
        obtain hshort | hroom := Nat.lt_or_ge d.length (tcEncodeFrame seg f).length
        · rw [encodeWith_of_short hshort]
          exact if_pos (hlength ▸ hshort)
        · rw [encodeWith_of_room hroom, ← memWrite_zero, hlength]
          exact if_neg (Nat.not_lt.mpr (hlength ▸ hroom))

theorem tmEncode_eq_encodeWith (frame : Option TmFrame) (dst : Option Bytes) (lout : Bool) :
    tmEncode frame dst lout = encodeWith tmEncodeFrame frame dst lout := by
  cases frame with
  | none => rfl
  | some f =>
    cases dst with
    | none => rfl
    | some d =>
      cases lout with
      | false => rfl
      | true =>
        have hlength := tmEncodeFrame_length f
        obtain hshort | hroom := Nat.lt_or_ge d.length (tmEncodeFrame f).length
        · rw [encodeWith_of_short hshort]
          exact if_pos (hlength ▸ hshort)
        · rw [encodeWith_of_room hroom, ← memWrite_zero, hlength]
          exact if_neg (Nat.not_lt.mpr (hlength ▸ hroom))

/-! ### TC_ENCODE -/

theorem tcOperandTooLong_of_lt {f : TcFrame} (hf : 1024 < f.payload.length) :
    tcOperandTooLong (some f) = true := by
  rw [← Bool.not_eq_false, tcOperandTooLong_some]
  omega

section
variable {s : State} {frame : Option TcFrame} {dst : Option Bytes} {lout : Bool}
  {rest : List Command}

/-- TC_ENCODE of a frame that is not too long completes with what it computes. -/
theorem exec_tcEncode_of_issued (h : Claims.issued s (.tcEncode frame dst lout) rest)
    (hframe : ∀ f, frame = some f → f.payload.length ≤ 1024) :
    exec .tcEncode s =
      .next (s.concludeEncode dst (encodeWith (tcEncodeFrame s.segHdr) frame dst lout)) := by
  rw [← tcEncode_eq_encodeWith]
  refine execTcEncode_of_operands (operands_of_issued h) ?_
  cases frame with
  | none => rfl
  | some f => exact (tcOperandTooLong_some f).mpr (hframe f rfl)

/-- TC_ENCODE of a frame that is too long is refused, whatever the other operands. -/
theorem exec_tcEncode_of_tooLong {f : TcFrame}
    (h : Claims.issued s (.tcEncode (some f) dst lout) rest) (hf : 1024 < f.payload.length) :
    exec .tcEncode s = .refused .payloadTooLong := by
  simp [exec, execTcEncode, operands_of_issued h, tcOperandTooLong_of_lt hf]

end

/-- With room for it TC_ENCODE answers the encoded frame in front of the buffer's tail. -/
theorem exec_tcEncode_of_room {f : TcFrame} {s : State} {d : Bytes} {rest : List Command}
    (h : Claims.issued s (.tcEncode (some f) (some d) true) rest) (hf : f.payload.length ≤ 1024)
    (hd : (tcEncodeFrame s.segHdr f).length ≤ d.length) :
    exec .tcEncode s = .next (Claims.answered s rest (.success (.encoded
      (tcEncodeFrame s.segHdr f ++ d.drop (tcEncodeFrame s.segHdr f).length)
      (tcEncodeFrame s.segHdr f).length))) := by
  rw [exec_tcEncode_of_issued h (by rintro _ ⟨⟩; exact hf), encodeWith_of_room hd,
    concludeEncode_ok_eq_answered h]

theorem tcSegPresent_eq_one_iff (seg : Bool) (cc : BitVec 1) :
    tcSegPresent seg cc = 1 ↔ seg = true ∧ cc = 0#1 := by
  unfold tcSegPresent
  split <;> simp [*]

/-- The bytes before the FECF, each from its fields (30_encoding.md R57, R58). -/
theorem tcEncodeBody_eq (seg : Bool) (f : TcFrame) (fl : BitVec 10)
    (hfl : fl = tcFlField f.payload.length (tcSegPresent seg f.cc)) :
    tcEncodeBody seg f =
      [f.version ++ f.bypass ++ f.cc ++ f.reserved ++ f.scid.extractLsb' 8 2,
       f.scid.extractLsb' 0 8, f.vcid ++ fl.extractLsb' 8 2, fl.extractLsb' 0 8, f.seq] ++
      (if seg = true ∧ f.cc = 0#1 then [f.segFlags ++ f.mapId] else []) ++ f.payload := by
  simp only [tcEncodeBody, tcHeaderBytes_tcHeader, tcSegPresent_eq_one_iff, tcSegByte, ← hfl]

/-- Settles O34: the bytes are those of `tcEncodeBody_eq` and their CRC, and the failures are those of
the two checks of `encodeWith`, behind the refusal of a long frame. -/
theorem tcEncodeCommand : Obligations.TcEncodeCommand := by
  unfold Obligations.TcEncodeCommand
  refine ⟨hasWord_encode .tcEncode, ?success, fun s frame dst lout rest h hframe => ?failure,
    fun s f dst lout rest h hf => exec_tcEncode_of_tooLong h hf⟩
  case success =>
    intro s f d rest h hf hd n fl body
    have hn : (tcEncodeFrame s.segHdr f).length = n :=
      (tcEncodeFrame_length _ _).trans (tcTotalLen_eq _ _)
    have hfl : fl = tcFlField f.payload.length (tcSegPresent s.segHdr f.cc) := by
      apply BitVec.eq_of_toNat_eq
      rw [BitVec.toNat_ofNat, Nat.mod_mod, ← hn, tcEncodeFrame_length, tcFlField,
        BitVec.toNat_ofNat]
    have hbody : tcEncodeBody s.segHdr f = body := tcEncodeBody_eq s.segHdr f fl hfl
    rw [exec_tcEncode_of_room h hf (hn.trans_le hd), hn, tcEncodeFrame, hbody, be16]
  case failure =>
    rw [exec_tcEncode_of_issued h hframe, failsWithDst_concludeEncode_iff h,
      failsWithDst_concludeEncode_iff h, encodeWith_eq_invalidParameter_iff,
      encodeWith_eq_bufferTooSmall_iff]
    simp only [tcEncodeFrame_length, iff_self, and_self]

/-! ### TM_ENCODE -/

section
variable {s : State} {frame : Option TmFrame} {dst : Option Bytes} {lout : Bool}
  {rest : List Command}

/-- TM_ENCODE of a frame that is not too long completes with what it computes. -/
theorem exec_tmEncode_of_issued (h : Claims.issued s (.tmEncode frame dst lout) rest)
    (hframe : ∀ f, frame = some f → f.payload.length ≤ 1024) :
    exec .tmEncode s = .next (s.concludeEncode dst (encodeWith tmEncodeFrame frame dst lout)) := by
  rw [← tmEncode_eq_encodeWith]
  refine execTmEncode_of_operands (operands_of_issued h) ?_
  cases frame with
  | none => rfl
  | some f => exact (tmOperandTooLong_some f).mpr (hframe f rfl)

/-- TM_ENCODE of a frame that is too long is refused, whatever the other operands. -/
theorem exec_tmEncode_of_tooLong {f : TmFrame}
    (h : Claims.issued s (.tmEncode (some f) dst lout) rest) (hf : 1024 < f.payload.length) :
    exec .tmEncode s = .refused .payloadTooLong := by
  have hlong : tmOperandTooLong (some f) = true := by
    rw [← Bool.not_eq_false, tmOperandTooLong_some]
    omega
  simp [exec, execTmEncode, operands_of_issued h, hlong]

end

/-- With room for it TM_ENCODE answers the encoded frame in front of the buffer's tail. -/
theorem exec_tmEncode_of_room {f : TmFrame} {s : State} {d : Bytes} {rest : List Command}
    (h : Claims.issued s (.tmEncode (some f) (some d) true) rest) (hf : f.payload.length ≤ 1024)
    (hd : (tmEncodeFrame f).length ≤ d.length) :
    exec .tmEncode s = .next (Claims.answered s rest (.success (.encoded
      (tmEncodeFrame f ++ d.drop (tmEncodeFrame f).length) (tmEncodeFrame f).length))) := by
  rw [exec_tmEncode_of_issued h (by rintro _ ⟨⟩; exact hf), encodeWith_of_room hd,
    concludeEncode_ok_eq_answered h]

/-- Settles O43: the bytes are the header's, the payload and their CRC, and the failures are those of
the two checks of `encodeWith`, behind the refusal of a long frame. -/
theorem tmEncodeCommand : Obligations.TmEncodeCommand := by
  unfold Obligations.TmEncodeCommand
  refine ⟨hasWord_encode .tmEncode, ?success, fun s frame dst lout rest h hframe => ?failure,
    fun s f dst lout rest h hf => exec_tmEncode_of_tooLong h hf⟩
  case success =>
    intro s f d rest h hf hd n body
    have hn : (tmEncodeFrame f).length = n := (tmEncodeFrame_length _).trans (tmTotalLen_eq _)
    have hbody : tmEncodeBody f = body := by rw [tmEncodeBody, tmHeaderBytes_tmHeader]
    rw [exec_tmEncode_of_room h hf (hn.trans_le hd), hn, tmEncodeFrame, hbody, be16]
  case failure =>
    rw [exec_tmEncode_of_issued h hframe, failsWithDst_concludeEncode_iff h,
      failsWithDst_concludeEncode_iff h, encodeWith_eq_invalidParameter_iff,
      encodeWith_eq_bufferTooSmall_iff]
    simp only [tmEncodeFrame_length, iff_self, and_self]

end Sys2Proof.Machine

/-! SUPPORT. The commands TC_SET_SEG (42_tc_codec.md R110, R111) and TC_DECODE (R130 to R135). -/

namespace Sys2Proof.Machine

/-! ### TC_SET_SEG -/

section
variable {s : State} {flags : BitVec 2} {map : BitVec 8} {rest : List Command}

/-- In a block with the feature TC_SET_SEG of a frame that is not too long completes with what
`tcSetSeg` computes. -/
theorem exec_tcSetSeg_of_issued {frame : Option TcFrame}
    (h : Claims.issued s (.tcSetSeg frame flags map) rest) (hseg : s.segHdr = true)
    (hframe : tcOperandTooLong frame = false) :
    exec .tcSetSeg s =
      .next (Claims.answered s rest (recordOf ((tcSetSeg frame flags map).map .tcFrame))) := by
  rw [← deliver_eq_answered h, ← State.conclude_eq]
  exact execTcSetSeg_of_operands (operands_of_issued h) hseg hframe

/-- TC_SET_SEG of a frame that is too long is refused. -/
theorem exec_tcSetSeg_of_tooLong {f : TcFrame}
    (h : Claims.issued s (.tcSetSeg (some f) flags map) rest) (hseg : s.segHdr = true)
    (hf : 1024 < f.payload.length) : exec .tcSetSeg s = .refused .payloadTooLong := by
  simp [exec, execTcSetSeg, operands_of_issued h, hseg, tcOperandTooLong_of_lt hf]

/-- A block without the feature has no TC_SET_SEG (30_encoding.md R50). -/
theorem exec_tcSetSeg_of_noFeature (hseg : s.segHdr = false) :
    exec .tcSetSeg s = .refused .segHdrNotPresent := by
  simp [exec, execTcSetSeg, hseg]

end

/-- Settles O33: the frame is the operand's with the two fields written, MAP by its remainder
(`mask_eq_ofNat`), and the refusals stand before it. -/
theorem tcSetSegWritesSegmentHeader : Obligations.TcSetSegWritesSegmentHeader := by
  unfold Obligations.TcSetSegWritesSegmentHeader
  refine ⟨hasWord_encode .tcSetSeg, fun s flags map rest => ⟨fun f h hseg hf => ?success,
    fun h hseg => exec_tcSetSeg_of_issued h hseg tcOperandTooLong_none,
    fun f h hseg hf => exec_tcSetSeg_of_tooLong h hseg hf,
    fun hseg => exec_tcSetSeg_of_noFeature hseg⟩⟩
  rw [exec_tcSetSeg_of_issued h hseg ((tcOperandTooLong_some f).mpr hf), tcSetSeg, reduceMap,
    mask_eq_ofNat]
  rfl

/-! ### TC_DECODE -/

/-- The bits of a word outside 0xFFFFFEFF are the flag E. -/
theorem word_eq_masked_or_e (w : CmdWord) :
    w = (w &&& 0xFFFFFEFF#32) ||| (if eOf w then 0x00000100#32 else 0#32) := by
  have he : w &&& 0x00000100#32 = if eOf w then 0x00000100#32 else 0#32 := BitVec.and_twoPow w 8
  rw [← he, ← BitVec.and_or_distrib_left]
  exact (BitVec.and_allOnes (x := w)).symm

/-- TC_DECODE has two words, which differ in the flag E (30_encoding.md R47). -/
theorem decode_tcDecode_iff (w : CmdWord) :
    (∃ e, decode w = .ok (.tcDecode e)) ↔ w &&& 0xFFFFFEFF#32 = 0x00000013#32 := by
  constructor
  · rintro ⟨e, hd⟩
    rw [eq_encode_of_decode hd]
    cases e <;> rfl
  · intro hmask
    refine ⟨eOf w, ?_⟩
    have hw := word_eq_masked_or_e w
    rw [hmask] at hw
    cases he : eOf w with
    | false =>
      rw [he] at hw
      exact hw ▸ decode_encode (.tcDecode false)
    | true =>
      rw [he] at hw
      exact hw ▸ decode_encode (.tcDecode true)

/-- TC_DECODE's flag is bit 8 of its word (30_encoding.md R45). -/
theorem eOf_of_decode_tcDecode {w : CmdWord} {e : Bool} (h : decode w = .ok (.tcDecode e)) :
    eOf w = e := by
  obtain ⟨_, _, he⟩ := decode_ok h
  exact BitVec.ofBool_eq_iff_eq.mp he

section
variable {s : State} {e : Bool} {src : Option Bytes} {fout : Bool} {rest : List Command}

/-- TC_DECODE in a build that has its flag delivers what `tcDecode` computes from its issued operands
and changes nothing else. -/
theorem exec_tcDecode_of_issued (h : Claims.issued s (.decode src fout) rest)
    (he : e = true → s.segHdr = true) :
    exec (.tcDecode e) s =
      .next (Claims.answered s rest (recordOf ((tcDecode s.segHdr e src fout).map .tcFrame))) := by
  rw [← deliver_eq_answered h, ← State.conclude_eq]
  exact execTcDecode_of_operands (operands_of_issued h) he

/-- A block without the feature has no TC_DECODE with E = 1 (30_encoding.md R47). -/
theorem exec_tcDecode_of_noFeature (hseg : s.segHdr = false) :
    exec (.tcDecode true) s = .refused .segHdrNotPresent := by
  simp [exec, execTcDecode, hseg]

/-- TC_DECODE with an absent operand fails before it looks at a length. -/
theorem tcDecode_of_absent (seg : Bool) (h : src = none ∨ fout = false) :
    tcDecode seg e src fout = .error .invalidParameter := by
  obtain rfl | rfl := h
  · rfl
  · cases src <;> rfl

end

theorem tcParseSeg_one (b : Bytes) (f : TcFrame) : tcParseSeg b 1 f =
    { f with segFlags := (byteAt b 5).extractLsb' 6 2, mapId := (byteAt b 5).extractLsb' 0 6 } := rfl

theorem tcParseSeg_of_ne_one (b : Bytes) (f : TcFrame) {n : Nat} (h : n ≠ 1) :
    tcParseSeg b n f = f := if_neg h

/-- The segment-header fields a decoder reads: those of byte 5 when it parses one, and 0 otherwise. -/
theorem tcParseSeg_tcParseHeader (b : Bytes) (P : Prop) [Decidable P] :
    tcParseSeg b (if P then 1 else 0) (tcParseHeader (tcReceivedHeader b)) =
      { tcParseHeader (tcReceivedHeader b) with
        segFlags := if P then (byteAt b 5).extractLsb' 6 2 else 0#2
        mapId := if P then (byteAt b 5).extractLsb' 0 6 else 0#6 } := by
  rw [tcParseHeader_tcReceivedHeader]
  by_cases hP : P
  · simp only [if_pos hP, tcParseSeg_one]
  · simp only [if_neg hP, tcParseSeg_of_ne_one _ _ Nat.zero_ne_one]
    rfl

/-- Settles O35: the delivered record is the one that the first check to fail gives, or the frame of
`tcParseHeader_tcReceivedHeader` with the segment-header fields of `tcParseSeg_tcParseHeader`. -/
theorem tcDecodeCommand : Obligations.TcDecodeCommand := by
  unfold Obligations.TcDecodeCommand
  refine ⟨decode_tcDecode_iff, fun w e h => (eOf_of_decode_tcDecode h).symm,
    fun s h => exec_tcDecode_of_noFeature h,
    fun s e src fout rest h he => ⟨fun habsent => ?absent, ?present⟩⟩
  case absent =>
    rw [exec_tcDecode_of_issued h he, tcDecode_of_absent _ habsent]
    rfl
  case present =>
    rintro b rfl rfl
    intro at' l seg n declared
    have hseg : n = 1 ↔ seg := by
      by_cases hP : seg <;> simp [n, hP]
    have hdecode := tcDecode_some s.segHdr e b n rfl
    have hroom (hmin : 7 + n ≤ l) : ¬ (seg ∧ l < 8) := by
      rintro ⟨hP, hshort⟩
      rw [hseg.mpr hP] at hmin
      omega
    simp only [exec_tcDecode_of_issued h he, hdecode, hseg]
    refine ⟨fun hshort => ?short, fun hmin hexpected hshort => ?noRoom,
      fun hmin hlong => ?long, fun hmin hmax (hcrc : _ ≠ declaredFecf b) => ?mismatch,
      fun hmin hmax (hcrc : _ = declaredFecf b) => ?success⟩
    case short =>
      rw [if_pos hshort]
      rfl
    case noRoom =>
      rw [if_neg (by omega), if_pos ⟨hexpected, hshort⟩]
      rfl
    case long =>
      rw [if_neg (by omega), if_neg (by omega), if_pos hlong]
      rfl
    case mismatch =>
      rw [if_neg (by omega), if_neg (hroom hmin), if_neg (by omega), if_pos hcrc]
      rfl
    case success =>
      rw [if_neg (by omega), if_neg (hroom hmin), if_neg (by omega), if_neg (not_not_intro hcrc),
        tcParseSeg_tcParseHeader, tcParseHeader_tcReceivedHeader]
      rfl

end Sys2Proof.Machine

/-! SUPPORT. Decoding what an encode command wrote: the round trips of TC frames (42_tc_codec.md R136)
and TM frames (43_tm_codec.md R165), and the segment header that a decoder does not expect
(70_reset_and_hazards.md R205, R206). -/

namespace Sys2Proof.Machine

/-! ### The parts of an encoded TC frame -/

/-- What an encoded TC frame holds between the primary header and the FECF: the segment-header byte
when there is one, and the payload. -/
def tcDataField (seg : Bool) (f : TcFrame) : Bytes :=
  (if seg = true ∧ f.cc = 0#1 then [f.segFlags ++ f.mapId] else []) ++ f.payload

theorem tcDataField_of_sent {seg : Bool} {f : TcFrame} (h : seg = true ∧ f.cc = 0#1) :
    tcDataField seg f = tcSegByte f :: f.payload := congrArg (· ++ f.payload) (if_pos h)

theorem tcDataField_of_not_sent {seg : Bool} {f : TcFrame} (h : ¬ (seg = true ∧ f.cc = 0#1)) :
    tcDataField seg f = f.payload := congrArg (· ++ f.payload) (if_neg h)

section
variable (seg : Bool) (f : TcFrame)

/-- The frame-length field that TC_ENCODE writes (42_tc_codec.md R122). -/
def tcSentLength : BitVec 10 := tcFlField f.payload.length (tcSegPresent seg f.cc)

theorem tcEncodeBody_eq_header_append :
    tcEncodeBody seg f = tcHeaderBytes (tcHeader f (tcSentLength seg f)) ++ tcDataField seg f := by
  rw [tcEncodeBody_eq seg f _ rfl, tcHeaderBytes_tcHeader, List.append_assoc]
  rfl

theorem tcEncodeFrame_eq_header_append : tcEncodeFrame seg f =
    tcHeaderBytes (tcHeader f (tcSentLength seg f)) ++
      (tcDataField seg f ++ be16 (crc16 (tcEncodeBody seg f))) := by
  rw [tcEncodeFrame, ← List.append_assoc, ← tcEncodeBody_eq_header_append]

theorem tcEncodeFrame_take_body :
    (tcEncodeFrame seg f).take ((tcEncodeFrame seg f).length - 2) = tcEncodeBody seg f := by
  simp [tcEncodeFrame]

theorem declaredFecf_tcEncodeFrame :
    declaredFecf (tcEncodeFrame seg f) = crc16 (tcEncodeBody seg f) :=
  declaredFecf_append_be16 _ _

theorem tcParseHeader_tcEncodeFrame :
    tcParseHeader (tcReceivedHeader (tcEncodeFrame seg f)) =
      { zeroTcFrame with
        version := f.version, bypass := f.bypass, cc := f.cc, reserved := f.reserved,
        scid := f.scid, vcid := f.vcid, frameLength := tcSentLength seg f, seq := f.seq } := by
  rw [tcEncodeFrame_eq_header_append, tcReceivedHeader_tcHeaderBytes, tcParseHeader_tcHeader]

/-- A decoder that parses `n` segment-header bytes takes the rest of the data field for payload. -/
theorem tcEncodeFrame_payload (n : Nat) :
    ((tcEncodeFrame seg f).drop (5 + n)).take ((tcEncodeFrame seg f).length - 7 - n) =
      (tcDataField seg f).drop n := by
  have hdata : ((tcEncodeFrame seg f).drop 5).take ((tcEncodeFrame seg f).length - 7) =
      tcDataField seg f := by
    rw [tcEncodeFrame_eq_header_append]
    simp [tcHeaderBytes]
  rw [← List.drop_drop, ← List.drop_take, hdata]

end

/-- The segment-header byte of an encoded frame stands after the primary header. -/
theorem byteAt_tcEncodeFrame_five {seg : Bool} {f : TcFrame} (h : seg = true ∧ f.cc = 0#1) :
    byteAt (tcEncodeFrame seg f) 5 = tcSegByte f := by
  rw [tcEncodeFrame_eq_header_append, tcDataField_of_sent h]
  rfl

/-- What TC_DECODE makes of an encoded frame, whatever the decoder's build and flag E: the sender's
fields but for those on the wire that the encoder computes, with the `n` segment-header bytes that
the decoder parses. -/
theorem tcDecode_tcEncodeFrame {seg seg' e : Bool} {f : TcFrame} {n : Nat}
    (hn : n = tcSegParsed seg' e f.cc) (hle : n ≤ tcSegPresent seg f.cc)
    (hlen : (tcEncodeFrame seg f).length ≤ 1031 + n) :
    tcDecode seg' e (some (tcEncodeFrame seg f)) true = .ok { f with
      frameLength := tcSentLength seg f
      segFlags := if n = 1 then f.segFlags else 0#2
      mapId := if n = 1 then f.mapId else 0#6
      payload := (tcDataField seg f).drop n
      fecf := crc16 (tcEncodeBody seg f) } := by
  have hcc : (byteAt (tcEncodeFrame seg f) 0).extractLsb' 4 1 = f.cc := by
    rw [← tcParseHeader_cc, tcParseHeader_tcEncodeFrame]
  have hmin : 7 + n ≤ (tcEncodeFrame seg f).length := by
    rw [tcEncodeFrame_length, tcTotalLen_eq]
    omega
  have hparsed : tcParseSeg (tcEncodeFrame seg f) n
      (tcParseHeader (tcReceivedHeader (tcEncodeFrame seg f))) =
      { f with
        frameLength := tcSentLength seg f
        segFlags := if n = 1 then f.segFlags else 0#2
        mapId := if n = 1 then f.mapId else 0#6
        payload := []
        fecf := 0#16 } := by
    rw [tcParseHeader_tcEncodeFrame]
    by_cases h1 : n = 1
    · have hpresent : tcSegPresent seg f.cc = 1 :=
        le_antisymm (tcSegPresent_le_one _ _) (h1 ▸ hle)
      obtain ⟨hflags, hmap⟩ := tcSegByte_fields f
      rw [h1, tcParseSeg_one,
        byteAt_tcEncodeFrame_five ((tcSegPresent_eq_one_iff _ _).mp hpresent), hflags, hmap]
      rfl
    · rw [tcParseSeg_of_ne_one _ _ h1, if_neg h1, if_neg h1]
      rfl
  rw [tcDecode_some seg' e _ n (by rw [hcc, hn]), if_neg (by omega), if_neg (by omega),
    if_neg (by omega), tcEncodeFrame_take_body, declaredFecf_tcEncodeFrame,
    if_neg (not_not_intro rfl), hparsed, tcEncodeFrame_payload]

/-! ### The round trip of a TC frame -/

/-- A decoder that expects segment headers exactly when its build has them parses the one that an
encoder of the same build sent. -/
theorem tcSegParsed_eq_tcSegPresent (seg : Bool) (cc : BitVec 1) :
    tcSegParsed seg seg cc = tcSegPresent seg cc := by
  cases seg <;> simp [tcSegParsed, tcSegPresent]

/-- The payload of a sent frame, behind the segment-header byte when there is one. -/
theorem tcDataField_drop (seg : Bool) (f : TcFrame) :
    (tcDataField seg f).drop (tcSegPresent seg f.cc) = f.payload := by
  by_cases hsent : seg = true ∧ f.cc = 0#1
  · rw [tcDataField_of_sent hsent, (tcSegPresent_eq_one_iff _ _).mpr hsent, List.drop_one,
      List.tail_cons]
  · have hzero : tcSegPresent seg f.cc = 0 := if_neg hsent
    rw [tcDataField_of_not_sent hsent, hzero, List.drop_zero]

/-- The frame that a round trip with the FECF `fecf` gives back: the frame length is the encoder's,
and the segment-header fields are those that were sent. -/
def tcRoundTrip (seg : Bool) (f : TcFrame) (fecf : BitVec 16) : TcFrame :=
  { f with
    frameLength := tcFlField f.payload.length (tcSegPresent seg f.cc)
    segFlags := if seg = true ∧ f.cc = 0#1 then f.segFlags else 0#2
    mapId := if seg = true ∧ f.cc = 0#1 then f.mapId else 0#6
    fecf := fecf }

theorem tcDecode_roundTrip (seg : Bool) {f : TcFrame} (hf : f.payload.length ≤ 1024) :
    tcDecode seg seg (some (tcEncodeFrame seg f)) true =
      .ok (tcRoundTrip seg f (crc16 (tcEncodeBody seg f))) := by
  have hlen : (tcEncodeFrame seg f).length ≤ 1031 + tcSegPresent seg f.cc := by
    rw [tcEncodeFrame_length, tcTotalLen_eq]
    omega
  rw [tcDecode_tcEncodeFrame (tcSegParsed_eq_tcSegPresent seg f.cc).symm le_rfl hlen,
    tcDataField_drop]
  simp only [tcSegPresent_eq_one_iff]
  rfl

/-- The round trip through the two commands. -/
theorem tcEncode_then_tcDecode {f : TcFrame} {s : State} {d : Bytes} {rest : List Command}
    (hf : f.payload.length ≤ 1024) (h : Claims.issued s (.tcEncode (some f) (some d) true) rest)
    (hd : tcTotalLen f.payload.length (tcSegPresent s.segHdr f.cc) ≤ d.length) :
    ∃ (d' : Bytes) (n : Nat),
      exec .tcEncode s = .next (Claims.answered s rest (.success (.encoded d' n))) ∧
      ∀ (u : State) (rest' : List Command), u.segHdr = s.segHdr →
        Claims.issued u (.decode (some (d'.take n)) true) rest' →
        exec (.tcDecode s.segHdr) u = .next (Claims.answered u rest' (.success (.tcFrame
          (tcRoundTrip s.segHdr f (crc16 (d'.take (n - 2))))))) := by
  rw [← tcEncodeFrame_length] at hd
  refine ⟨_, _, exec_tcEncode_of_room h hf hd, fun u rest' hu hissued => ?_⟩
  rw [List.take_left] at hissued
  rw [exec_tcDecode_of_issued hissued (fun he => hu.trans he), hu, tcDecode_roundTrip _ hf,
    List.take_append_of_le_length (Nat.sub_le _ _), tcEncodeFrame_take_body]
  rfl

/-- Settles O38: the frame given back is `tcRoundTrip`'s, with the CRC of the bytes before the
FECF. -/
theorem tcRoundTripOfAnyFrame : Obligations.TcRoundTripOfAnyFrame := by
  unfold Obligations.TcRoundTripOfAnyFrame
  exact fun f s d rest hf h hd => tcEncode_then_tcDecode hf h hd

/-! ### The round trip of a created TC frame -/

/-- A TC frame as TC_CREATE and TC_SET_SEG leave it: its frame length is the one it has on the wire,
and it has no segment-header fields that would not be sent. -/
def Sendable (seg : Bool) (f : TcFrame) : Prop :=
  f.payload.length ≤ 1024 ∧
  f.frameLength = tcFlField f.payload.length (tcSegPresent seg f.cc) ∧
  ((seg = true ∧ f.cc = 0#1) ∨ (f.segFlags = 0#2 ∧ f.mapId = 0#6))

/-- The round trip of such a frame changes its fecf only. -/
theorem tcRoundTrip_of_sendable {seg : Bool} {f : TcFrame} (h : Sendable seg f) (fecf : BitVec 16) :
    tcRoundTrip seg f fecf = { f with fecf := fecf } := by
  obtain ⟨_, hlength, hsent | ⟨hflags, hmap⟩⟩ := h
  · rw [tcRoundTrip, if_pos hsent, if_pos hsent, ← hlength]
  · rw [tcRoundTrip, ← hlength, ← hflags, ← hmap, ite_self, ite_self]

/-- A Success of a command without a DST operand delivers what the command computed. -/
theorem eq_ok_of_conclude_delivers {α : Type} {s : State} {x : Except Failure α} {g : α → Results}
    {r : Results} (h : (s.conclude (x.map g)).delivered.head? = some (.success r)) :
    ∃ a, x = .ok a ∧ g a = r := by
  cases x with
  | ok a =>
    cases h
    exact ⟨a, rfl, rfl⟩
  | error why => cases h

/-- The operands of a create command fail its one check (42_tc_codec.md R103, 43_tm_codec.md R143), or
they are a frame slot and a legal payload. -/
theorem createFails_or_not (payload : Option Bytes) (fout : Bool) :
    (fout = false ∨ payload = none ∨ ∃ p, payload = some p ∧ 1024 < p.length) ∨
      ∃ p, fout = true ∧ payload = some p ∧ p.length ≤ 1024 := by
  cases fout with
  | false => exact .inl (.inl rfl)
  | true =>
    cases payload with
    | none => exact .inl (.inr (.inl rfl))
    | some p =>
      obtain hlong | hp := Nat.lt_or_ge 1024 p.length
      · exact .inl (.inr (.inr ⟨p, rfl, hlong⟩))
      · exact .inr ⟨p, rfl, rfl, hp⟩

/-- TC_CREATE fails its one check, or computes a frame as it is sent. -/
theorem tcCreate_cases (seg : Bool) (scid : BitVec 16) (vcid seq : BitVec 8)
    (payload : Option Bytes) (fout : Bool) :
    tcCreate seg scid vcid seq payload fout = .error .invalidParameter ∨
      ∃ f, tcCreate seg scid vcid seq payload fout = .ok f ∧ Sendable seg f ∧ f.cc = 0#1 := by
  obtain hfail | ⟨p, rfl, rfl, hp⟩ := createFails_or_not payload fout
  · exact .inl ((tcCreate_error_iff ..).mpr hfail)
  · refine .inr ⟨_, tcCreate_of_length_le seg scid vcid seq hp, ⟨hp, ?_, .inr ⟨rfl, rfl⟩⟩, rfl⟩
    rw [tcFlField_eq_ofNat]
    exact congrArg (fun n => BitVec.ofNat 10 ((p.length + n + 6) % 1024))
      (tcSegPresent_of_noControl seg).symm

theorem sendable_of_tcCreate {seg : Bool} {scid : BitVec 16} {vcid seq : BitVec 8}
    {payload : Option Bytes} {fout : Bool} {f : TcFrame}
    (h : tcCreate seg scid vcid seq payload fout = .ok f) : Sendable seg f ∧ f.cc = 0#1 := by
  obtain herror | ⟨g, hg, hsent⟩ := tcCreate_cases seg scid vcid seq payload fout
  · cases herror.symm.trans h
  · cases hg.symm.trans h
    exact hsent

theorem sendable_of_createdTc {seg : Bool} {f : TcFrame} (h : Claims.createdTc seg f) :
    Sendable seg f ∧ f.cc = 0#1 := by
  obtain ⟨s, t, rfl, ht, hhead⟩ := h
  obtain ⟨_, _, _, _, _, _, rfl⟩ := execTcCreate_next ht
  obtain ⟨g, hg, ⟨⟩⟩ := eq_ok_of_conclude_delivers hhead
  exact sendable_of_tcCreate hg

/-- TC_SET_SEG writes the segment-header fields of a frame that has a segment header. -/
theorem sendable_of_createdAndSetTc {seg : Bool} {f : TcFrame}
    (h : Claims.createdAndSetTc seg f) : Sendable seg f := by
  obtain ⟨g, flags, map, rest, s, t, hcreated, rfl, hissued, ht, hhead⟩ := h
  obtain ⟨⟨hpayload, hlength, _⟩, hcc⟩ := sendable_of_createdTc hcreated
  obtain ⟨_, _, _, hops, hseg, _, rfl⟩ := execTcSetSeg_next ht
  cases (operands_of_issued hissued).symm.trans hops
  obtain ⟨_, ⟨⟩, ⟨⟩⟩ := eq_ok_of_conclude_delivers hhead
  exact ⟨hpayload, hlength, .inl ⟨hseg, hcc⟩⟩

/-- Settles O37: a created frame is sendable, so its round trip (`tcEncode_then_tcDecode`) changes its
fecf only. -/
theorem tcRoundTripOfCreatedFrame : Obligations.TcRoundTripOfCreatedFrame := by
  unfold Obligations.TcRoundTripOfCreatedFrame
  intro f s d rest hcreated h hd
  have hf : Sendable s.segHdr f :=
    hcreated.elim (fun hc => (sendable_of_createdTc hc).1) sendable_of_createdAndSetTc
  obtain ⟨d', n, hencode, hdecode⟩ := tcEncode_then_tcDecode hf.1 h hd
  refine ⟨d', n, hencode, ?_⟩
  simpa only [tcRoundTrip_of_sendable hf] using hdecode

/-! ### A segment header that is not expected -/

theorem tcSegParsed_of_noFlag (seg : Bool) (cc : BitVec 1) : tcSegParsed seg false cc = 0 := by
  simp [tcSegParsed]

/-- Settles O36: the decoder parses no segment header, so the whole data field is its payload. -/
theorem unexpectedSegmentHeaderBecomesPayload : Obligations.UnexpectedSegmentHeaderBecomesPayload := by
  unfold Obligations.UnexpectedSegmentHeaderBecomesPayload
  intro s t f d d' n rest h hseg hcc hf ht hdelivered u rest' hissued
  obtain ⟨frame, dst, _, hops, _, rfl⟩ := execTcEncode_next ht
  cases (operands_of_issued h).symm.trans hops
  have hencode := eq_ok_of_concludeEncode_delivers hdelivered
  rw [tcEncode_eq_encodeWith] at hencode
  obtain ⟨_, tail, ⟨⟩, rfl, rfl⟩ := encodeWith_eq_ok hencode
  rw [List.take_left] at hissued
  have hlen : (tcEncodeFrame s.segHdr f).length ≤ 1031 + 0 := by
    have hle := tcSegPresent_le_one s.segHdr f.cc
    rw [tcEncodeFrame_length, tcTotalLen_eq]
    omega
  rw [exec_tcDecode_of_issued hissued (fun he => absurd he Bool.false_ne_true),
    tcDecode_tcEncodeFrame (tcSegParsed_of_noFlag u.segHdr f.cc).symm (Nat.zero_le _) hlen]
  refine ⟨_, rfl, ?_, rfl, rfl⟩
  exact tcDataField_of_sent ⟨hseg, hcc⟩

/-! ### The round trip of a TM frame -/

theorem tmEncodeFrame_take_body (f : TmFrame) :
    (tmEncodeFrame f).take ((tmEncodeFrame f).length - 2) = tmEncodeBody f := by
  simp [tmEncodeFrame]

theorem tmParseHeader_tmEncodeFrame (f : TmFrame) :
    tmParseHeader (tmReceivedHeader (tmEncodeFrame f)) = { f with payload := [], fecf := 0#16 } := by
  rw [tmEncodeFrame, tmEncodeBody, List.append_assoc, tmReceivedHeader_tmHeaderBytes,
    tmParseHeader_tmHeader]

theorem tmEncodeFrame_payload (f : TmFrame) :
    ((tmEncodeFrame f).drop 6).take ((tmEncodeFrame f).length - 8) = f.payload := by
  simp [tmEncodeFrame, tmEncodeBody, tmHeaderBytes]

/-- TM_DECODE gives back every field of an encoded frame but fecf, which is its CRC. -/
theorem tmDecode_tmEncodeFrame {f : TmFrame} (hf : f.payload.length ≤ 1024) :
    tmDecode (some (tmEncodeFrame f)) true = .ok { f with fecf := crc16 (tmEncodeBody f) } := by
  have hlen : (tmEncodeFrame f).length = 6 + f.payload.length + 2 := by
    rw [tmEncodeFrame_length, tmTotalLen_eq]
  have hfecf : declaredFecf (tmEncodeFrame f) = crc16 (tmEncodeBody f) :=
    declaredFecf_append_be16 _ _
  rw [tmDecode_some, if_neg (by omega), if_neg (by omega), tmEncodeFrame_take_body, hfecf,
    if_neg (not_not_intro rfl), tmParseHeader_tmEncodeFrame, tmEncodeFrame_payload]

/-- Settles O45: the bytes that TM_ENCODE writes are the encoded frame, which TM_DECODE reads back
(`tmDecode_tmEncodeFrame`). -/
theorem tmRoundTrip : Obligations.TmRoundTrip := by
  unfold Obligations.TmRoundTrip
  intro f s d rest hf h hd
  rw [← tmEncodeFrame_length] at hd
  refine ⟨_, _, exec_tmEncode_of_room h hf hd, fun u rest' hissued => ?_⟩
  rw [List.take_left] at hissued
  rw [exec_tmDecode_of_issued hissued, tmDecode_tmEncodeFrame hf,
    List.take_append_of_le_length (Nat.sub_le _ _), tmEncodeFrame_take_body]
  rfl

end Sys2Proof.Machine

/-! SUPPORT. What a decoder accepts, and that a changed bit is always detected (42_tc_codec.md R137,
43_tm_codec.md R166). -/

namespace Sys2Proof.Machine

/-! ### The checks of a decoder -/

/-- A sequence of two bytes or more ends in its declared FECF. -/
theorem eq_take_append_be16 {b : Bytes} (h : 2 ≤ b.length) :
    b = b.take (b.length - 2) ++ be16 (declaredFecf b) := by
  have hbytes (x y : Byte) : be16 (x ++ y) = [x, y] := by
    simp only [be16, List.cons.injEq, and_true]
    constructor <;> apply BitVec.eq_of_toNat_eq <;>
      simp only [toNat_append_add, BitVec.extractLsb'_toNat, Nat.shiftRight_eq_div_pow] <;> omega
  have hdrop : b.drop (b.length - 2) = [byteAt b (b.length - 2), byteAt b (b.length - 1)] := by
    simp only [byteAt, List.getD_eq_getElem b 0#8 (show b.length - 2 < b.length by omega),
      List.getD_eq_getElem b 0#8 (show b.length - 1 < b.length by omega)]
    rw [List.drop_eq_getElem_cons (by omega), List.drop_eq_getElem_cons (by omega),
      List.drop_eq_nil_of_le (by omega)]
    simp only [show b.length - 2 + 1 = b.length - 1 by omega]
  rw [declaredFecf, join16, hbytes, ← hdrop, List.take_append_drop]

/-- A received frame passes its CRC check exactly when the CRC of all its bytes is 0
(40_crc.md R83). -/
theorem crc16_take_eq_declaredFecf_iff {b : Bytes} (h : 2 ≤ b.length) :
    crc16 (b.take (b.length - 2)) = declaredFecf b ↔ crc16 b = 0#16 := by
  rw [← crc16_append_be16_eq_zero_iff, ← eq_take_append_be16 h]

/-- A decoder's presence check (60_exceptions.md R187). -/
theorem absent_or_present (src : Option Bytes) (fout : Bool) :
    (src = none ∨ fout = false) ∨ ∃ b, src = some b ∧ fout = true := by
  cases src with
  | none => exact .inl (.inl rfl)
  | some b =>
    cases fout with
    | false => exact .inl (.inr rfl)
    | true => exact .inr ⟨b, rfl, rfl⟩

/-- TC_DECODE accepts a sequence of legal length and CRC residue 0, and then gives its fields. -/
theorem tcDecode_eq_ok {seg e : Bool} {src : Option Bytes} {fout : Bool} {f : TcFrame}
    (h : tcDecode seg e src fout = .ok f) :
    ∃ (b : Bytes) (n : Nat), src = some b ∧ n = tcSegParsed seg e ((byteAt b 0).extractLsb' 4 1) ∧
      7 + n ≤ b.length ∧ b.length ≤ 1031 + n ∧ crc16 b = 0#16 ∧
      f = { tcParseSeg b n (tcParseHeader (tcReceivedHeader b)) with
        payload := (b.drop (5 + n)).take (b.length - 7 - n)
        fecf := declaredFecf b } := by
  obtain habsent | ⟨b, rfl, rfl⟩ := absent_or_present src fout
  · rw [tcDecode_of_absent seg habsent] at h
    cases h
  obtain ⟨n, hn⟩ : ∃ n, n = tcSegParsed seg e ((byteAt b 0).extractLsb' 4 1) := ⟨_, rfl⟩
  have hle : n ≤ 1 := hn ▸ tcSegParsed_le_one ..
  rw [tcDecode_some seg e b n hn] at h
  split_ifs at h with h7 h8 h1031 hcrc
  cases h
  refine ⟨b, n, rfl, hn, by omega, by omega, ?_, rfl⟩
  exact (crc16_take_eq_declaredFecf_iff (by omega)).mp (not_not.mp hcrc)

/-- TC_DECODE rejects every sequence whose CRC residue is not 0: by its length where that is illegal,
and by the CRC otherwise. -/
theorem tcDecode_of_crc_ne {seg e : Bool} {b : Bytes} {n : Nat}
    (hn : n = tcSegParsed seg e ((byteAt b 0).extractLsb' 4 1)) (hlen : 7 ≤ b.length)
    (hcrc : crc16 b ≠ 0#16) :
    tcDecode seg e (some b) true = .error
      (if (n = 1 ∧ b.length < 8) ∨ 1031 + n < b.length then .invalidFrame else .crcMismatch) := by
  have hcheck := mt (crc16_take_eq_declaredFecf_iff (by omega)).mp hcrc
  rw [tcDecode_some seg e b n hn, if_neg (by omega), if_pos hcheck]
  by_cases h8 : n = 1 ∧ b.length < 8
  · rw [if_pos h8, if_pos (.inl h8)]
  by_cases h1031 : 1031 + n < b.length
  · rw [if_neg h8, if_pos h1031, if_pos (.inr h1031)]
  · rw [if_neg h8, if_neg h1031, if_neg (not_or.mpr ⟨h8, h1031⟩)]

/-- TM_DECODE accepts a sequence of legal length and CRC residue 0, and then gives its fields. -/
theorem tmDecode_eq_ok {src : Option Bytes} {fout : Bool} {f : TmFrame}
    (h : tmDecode src fout = .ok f) :
    ∃ b : Bytes, src = some b ∧ 8 ≤ b.length ∧ b.length ≤ 1032 ∧ crc16 b = 0#16 ∧
      f = { tmParseHeader (tmReceivedHeader b) with
        payload := (b.drop 6).take (b.length - 8)
        fecf := declaredFecf b } := by
  obtain habsent | ⟨b, rfl, rfl⟩ := absent_or_present src fout
  · rw [tmDecode_of_absent habsent] at h
    cases h
  rw [tmDecode_some] at h
  split_ifs at h with h8 h1032 hcrc
  cases h
  refine ⟨b, rfl, by omega, by omega, ?_, rfl⟩
  exact (crc16_take_eq_declaredFecf_iff (by omega)).mp (not_not.mp hcrc)

/-- TM_DECODE rejects a sequence of legal length whose CRC residue is not 0. -/
theorem tmDecode_of_crc_ne {b : Bytes} (hmin : 8 ≤ b.length) (hmax : b.length ≤ 1032)
    (hcrc : crc16 b ≠ 0#16) : tmDecode (some b) true = .error .crcMismatch := by
  have hcheck := mt (crc16_take_eq_declaredFecf_iff (by omega)).mp hcrc
  rw [tmDecode_some, if_neg (by omega), if_neg (by omega), if_pos hcheck]

/-! ### Corrupted frames -/

/-- A command without a DST operand delivers a Success exactly when its computation gave it. -/
@[simp] theorem recordOf_map_eq_success_iff {α : Type} {x : Except Failure α} {g : α → Results}
    {r : Results} : recordOf (x.map g) = .success r ↔ ∃ a, x = .ok a ∧ g a = r := by
  cases x <;> simp [recordOf, Except.map]

/-- A changed bit leaves no CRC residue 0. -/
theorem crc16_flipBit_ne_zero {x : Bytes} {i k : Nat} (hx : crc16 x = 0#16) (hi : i < x.length)
    (hk : k < 8) : crc16 (flipBit x i k) ≠ 0#16 :=
  hx ▸ crcSeesEverySingleBit x i k hi hk

/-- Settles O46: an accepted frame has a legal length and CRC residue 0, and the changed one has the
same length and another residue. -/
theorem tmCorruptionIsDetected : Obligations.TmCorruptionIsDetected := by
  unfold Obligations.TmCorruptionIsDetected
  intro s u x f i k rest rest' h hok hi hk hissued
  rw [exec_tmDecode_of_issued h, Host.Outcome.next.injEq, answered_inj,
    recordOf_map_eq_success_iff] at hok
  obtain ⟨g, hg, _⟩ := hok
  obtain ⟨_, ⟨⟩, hmin, hmax, hcrc, _⟩ := tmDecode_eq_ok hg
  rw [exec_tmDecode_of_issued hissued, tmDecode_of_crc_ne (by rwa [flipBit_length])
    (by rwa [flipBit_length]) (crc16_flipBit_ne_zero hcrc hi hk)]
  rfl

/-- The control-command flag is bit 4 of byte 0, and no other change of a bit reaches it. -/
theorem cc_flipBit {x : Bytes} {i k : Nat} (hi : i < x.length) (hk : k < 8) :
    (byteAt (flipBit x i k) 0).extractLsb' 4 1 =
      (byteAt x 0).extractLsb' 4 1 ^^^ (if i = 0 ∧ k = 4 then 1#1 else 0#1) := by
  have hbit : (1#8 <<< k).extractLsb' 4 1 = if k = 4 then 1#1 else 0#1 := by
    interval_cases k <;> rfl
  cases x with
  | nil => simp at hi
  | cons b d =>
    cases i with
    | zero => simp [flipBit, byteAt, BitVec.extractLsb'_xor, hbit]
    | succ i => simp [flipBit, byteAt]

theorem tcParseSeg_cc (b : Bytes) (n : Nat) (f : TcFrame) : (tcParseSeg b n f).cc = f.cc := by
  by_cases h : n = 1
  · rw [h, tcParseSeg_one]
  · rw [tcParseSeg_of_ne_one b f h]

/-- The two changes of a frame of legal length that make its length illegal: the control-command flag
cleared, so that a segment header is expected in 7 bytes, and set, so that the payload has 1025
bytes. -/
theorem reframed_iff {seg e : Bool} {cc : BitVec 1} {l : Nat} (P : Prop) [Decidable P]
    (hmin : 7 + tcSegParsed seg e cc ≤ l) (hmax : l ≤ 1031 + tcSegParsed seg e cc) :
    ((tcSegParsed seg e (cc ^^^ if P then 1#1 else 0#1) = 1 ∧ l < 8) ∨
        1031 + tcSegParsed seg e (cc ^^^ if P then 1#1 else 0#1) < l) ↔
      P ∧ e = true ∧ seg = true ∧ ((cc = 1#1 ∧ l = 7) ∨ (cc = 0#1 ∧ l = 1032)) := by
  by_cases hP : P
  · cases e with
    | false => simp [tcSegParsed] at hmax ⊢; omega
    | true =>
      cases seg with
      | false => simp [tcSegParsed] at hmax ⊢; omega
      | true =>
        obtain rfl | rfl := BitVec.eq_zero_or_eq_one cc
        · simp [tcSegParsed, hP] at hmin hmax ⊢; omega
        · simp [tcSegParsed, hP] at hmin hmax ⊢; omega
  · simp [hP]; omega

/-- Settles O39: an accepted frame has a legal length and CRC residue 0; the changed one has the same
length and another residue, and only a changed control-command flag can make that length illegal
(`reframed_iff`). -/
theorem tcCorruptionIsDetected : Obligations.TcCorruptionIsDetected := by
  unfold Obligations.TcCorruptionIsDetected
  intro s u e x f i k rest rest' h hok hi hk hu hissued reframed
  obtain ⟨_, _, _, he, _⟩ := execTcDecode_next hok
  rw [exec_tcDecode_of_issued h he, Host.Outcome.next.injEq, answered_inj,
    recordOf_map_eq_success_iff] at hok
  obtain ⟨g, hg, ⟨⟩⟩ := hok
  obtain ⟨_, _, ⟨⟩, rfl, hmin, hmax, hcrc, hf⟩ := tcDecode_eq_ok hg
  have hcc : (byteAt x 0).extractLsb' 4 1 = f.cc := by rw [hf, ← tcParseHeader_cc, tcParseSeg_cc]
  rw [hcc] at hmin hmax
  have hdecode := tcDecode_of_crc_ne (seg := s.segHdr) (e := e) (b := flipBit x i k) rfl
    (by rw [flipBit_length]; omega) (crc16_flipBit_ne_zero hcrc hi hk)
  rw [cc_flipBit hi hk, hcc, flipBit_length] at hdecode
  have hreframed := (reframed_iff (i = 0 ∧ k = 4) hmin hmax).trans and_assoc
  rw [exec_tcDecode_of_issued hissued (by rwa [hu]), hu, hdecode, if_congr hreframed rfl rfl]
  rfl

end Sys2Proof.Machine

/-! SUPPORT. What a step keeps: the build parameter (10_state.md R13), the counter (R12), and the
well-formedness of the delivered results (R14, R15, R17). -/

namespace Sys2Proof.Machine

variable {s t : State}

/-! ### The frame of a command -/

@[simp] theorem State.conclude_segHdr (s : State) (x : Except Failure Results) :
    (s.conclude x).segHdr = s.segHdr := by
  rw [State.conclude_eq, State.deliver_segHdr]

@[simp] theorem State.conclude_draws (s : State) (x : Except Failure Results) :
    (s.conclude x).draws = s.draws := by
  rw [State.conclude_eq, State.deliver_draws]

/-- A command that answers a next state leaves the build parameter, and the draw counter when it is
no encode command. -/
theorem exec_keeps_segHdr_draws {i : Instr} (h : exec i s = .next t) :
    t.segHdr = s.segHdr ∧ (i ≠ .tcEncode → i ≠ .tmEncode → t.draws = s.draws) := by
  cases i with
  | crc16 => obtain ⟨_, _, rfl⟩ := execCrc16_next h; exact ⟨rfl, fun _ _ => rfl⟩
  | tcCreate =>
    obtain ⟨_, _, _, _, _, _, rfl⟩ := execTcCreate_next h
    exact ⟨s.conclude_segHdr _, fun _ _ => s.conclude_draws _⟩
  | tcSetSeg =>
    obtain ⟨_, _, _, _, _, _, rfl⟩ := execTcSetSeg_next h
    exact ⟨s.conclude_segHdr _, fun _ _ => s.conclude_draws _⟩
  | tcEncode =>
    obtain ⟨_, _, _, _, _, rfl⟩ := execTcEncode_next h
    exact ⟨s.concludeEncode_segHdr _ _, fun hne _ => absurd rfl hne⟩
  | tcDecode e =>
    obtain ⟨_, _, _, _, rfl⟩ := execTcDecode_next h
    exact ⟨s.conclude_segHdr _, fun _ _ => s.conclude_draws _⟩
  | tmCreate =>
    obtain ⟨_, _, _, _, _, ⟨_, _, rfl⟩ | ⟨_, _, rfl⟩⟩ := execTmCreate_next h
    · exact ⟨rfl, fun _ _ => rfl⟩
    · exact ⟨rfl, fun _ _ => rfl⟩
  | tmEncode =>
    obtain ⟨_, _, _, _, _, rfl⟩ := execTmEncode_next h
    exact ⟨s.concludeEncode_segHdr _ _, fun _ hne => absurd rfl hne⟩
  | tmDecode =>
    obtain ⟨_, _, _, rfl⟩ := execTmDecode_next h
    exact ⟨s.conclude_segHdr _, fun _ _ => s.conclude_draws _⟩
  | cntRead => obtain ⟨_, rfl⟩ := execCntRead_next h; exact ⟨rfl, fun _ _ => rfl⟩
  | cntWrite => obtain ⟨_, _, rfl⟩ := execCntWrite_next h; exact ⟨rfl, fun _ _ => rfl⟩

/-- Settles O14: a command completes (`completesTo_of_exec_next`) and leaves the build parameter and
the draw counter (`exec_keeps_segHdr_draws`). -/
theorem commandFrame : Obligations.CommandFrame := by
  unfold Obligations.CommandFrame
  intro i s t h
  obtain ⟨hpending, hdelivered⟩ := completesTo_of_exec_next i h
  obtain ⟨hseg, hdraws⟩ := exec_keeps_segHdr_draws h
  exact ⟨hseg, hpending, hdelivered, hdraws⟩

/-- A step that answers a next state leaves the build parameter. -/
theorem step_keeps_segHdr (h : step s = .next t) : t.segHdr = s.segHdr := by
  obtain ⟨_, rfl⟩ | ⟨_, _, _, _, _, he⟩ := step_next h
  · rfl
  · exact (exec_keeps_segHdr_draws he).1

/-- Settles O12: the wait changes nothing, and no command writes the build parameter. -/
theorem buildParameterIsConstant : Obligations.BuildParameterIsConstant := by
  unfold Obligations.BuildParameterIsConstant
  exact fun _ _ h => step_keeps_segHdr h

/-- The operand record of the command that runs was issued with it. -/
theorem issued_of_operands {ops : Operands} (h : s.operands = some ops) :
    ∃ rest, Claims.issued s ops rest := by
  obtain ⟨c, hc, rfl⟩ := Option.map_eq_some_iff.mp h
  obtain ⟨rest, hrest⟩ := List.head?_eq_some_iff.mp hc
  exact ⟨rest, c.word, hrest⟩

/-- Settles O13: TM_CREATE advances the counter or has failed, CNT_WRITE loads its operand, and the
others are those of `exec_keeps_ctr`. -/
theorem onlyTmCreateAndCntWriteWriteCtr : Obligations.OnlyTmCreateAndCntWriteWriteCtr := by
  unfold Obligations.OnlyTmCreateAndCntWriteWriteCtr
  intro i s t h
  refine ⟨fun hcreate hwrite => exec_keeps_ctr hcreate hwrite h, ?create, ?write⟩
  case create =>
    rintro rfl
    obtain ⟨_, _, _, _, _, ⟨_, _, rfl⟩ | ⟨_, _, rfl⟩⟩ := execTmCreate_next h
    · exact .inr (BitVec.toNat_add s.ctr 1#8)
    · exact .inl (s.fail_ctr _)
  case write =>
    rintro rfl
    obtain ⟨v, hops, rfl⟩ := execCntWrite_next h
    obtain ⟨rest, hissued⟩ := issued_of_operands hops
    exact ⟨v, rest, hissued, rfl⟩

/-! ### Well-formed results -/

/-- A command without a DST operand delivers a well-formed record when what it computes is. -/
theorem recordOf_map_wf {α : Type} {seg : Bool} {x : Except Failure α} {g : α → Results}
    (h : ∀ a, x = .ok a → (g a).wf seg) : (recordOf (x.map g)).wf seg := by
  cases x with
  | ok a => exact h a rfl
  | error why => trivial

/-- An encode command delivers a well-formed record when what it computes is. -/
theorem concludeEncode_delivers_wf {seg : Bool} {dst : Option Bytes}
    {x : Except Failure (Bytes × Nat)} (h : ∀ d n, x = .ok (d, n) → (Results.encoded d n).wf seg) :
    ∃ r, (s.concludeEncode dst x).delivered = r :: s.delivered ∧ r.wf seg := by
  cases x with
  | ok a => exact ⟨_, rfl, h a.1 a.2 rfl⟩
  | error why =>
    obtain ⟨_, hdelivered, _⟩ := s.concludeEncode_error why dst
    exact ⟨_, hdelivered, trivial⟩

/-- A frame that TC_CREATE computes is well-formed. -/
theorem sendable_wf {seg : Bool} {f : TcFrame} (h : Sendable seg f) :
    (Results.tcFrame f).wf seg := by
  obtain ⟨hpayload, _, hsegHdr⟩ := h
  refine ⟨(tcFrame_wf_iff f).mpr hpayload, fun hseg => ?_⟩
  obtain ⟨hon, _⟩ | ⟨hflags, hmap⟩ := hsegHdr
  · exact absurd hon (hseg ▸ Bool.false_ne_true)
  · simp [TcFrame.noSegHdr, hflags, hmap]

/-- TC_SET_SEG runs in a build with the feature only, and its operand was not too long. -/
theorem tcSetSeg_wf {frame : Option TcFrame} {flags : BitVec 2} {map : BitVec 8} {f : TcFrame}
    (hframe : tcOperandTooLong frame = false) (h : tcSetSeg frame flags map = .ok f) :
    (Results.tcFrame f).wf true := by
  cases frame with
  | none => cases h
  | some g =>
    cases h
    exact ⟨(tcFrame_wf_iff _).mpr ((tcOperandTooLong_some g).mp hframe), nofun⟩

/-- A decoded TC frame has a legal payload, and segment-header fields only from a build with the
feature. -/
theorem tcDecode_wf {seg e : Bool} {src : Option Bytes} {fout : Bool} {f : TcFrame}
    (h : tcDecode seg e src fout = .ok f) : (Results.tcFrame f).wf seg := by
  obtain ⟨b, n, _, hn, _, hmax, _, rfl⟩ := tcDecode_eq_ok h
  refine ⟨(tcFrame_wf_iff _).mpr ?_, fun hseg => ?_⟩
  · have hle := List.length_take_le (b.length - 7 - n) (b.drop (5 + n))
    show ((b.drop (5 + n)).take (b.length - 7 - n)).length ≤ 1024
    omega
  · have hzero : n = 0 := by simp [hn, tcSegParsed, hseg]
    rw [hzero, tcParseSeg_of_ne_one _ _ Nat.zero_ne_one]
    rfl

theorem tmDecode_wf {seg : Bool} {src : Option Bytes} {fout : Bool} {f : TmFrame}
    (h : tmDecode src fout = .ok f) : (Results.tmFrame f).wf seg := by
  obtain ⟨b, _, _, hmax, _, rfl⟩ := tmDecode_eq_ok h
  refine (tmFrame_wf_iff _).mpr ?_
  have hle := List.length_take_le (b.length - 8) (b.drop 6)
  show ((b.drop 6).take (b.length - 8)).length ≤ 1024
  omega

theorem tmCreate_wf {seg : Bool} {ctr : Count} {scid : BitVec 16} {vcid : BitVec 8}
    {payload : Option Bytes} {fout : Bool} {f : TmFrame}
    (h : tmCreate ctr scid vcid payload fout = .ok f) : (Results.tmFrame f).wf seg := by
  obtain ⟨_, _, _, hp, rfl⟩ := tmCreate_eq_ok_iff.mp h
  exact (tmFrame_wf_iff _).mpr hp

/-- A body with its CRC after it, in front of a buffer's tail, is a well-formed encode result. -/
theorem encoded_wf {seg : Bool} (body tail : Bytes) (hmin : 5 ≤ body.length)
    (hmax : body.length ≤ 1030) :
    (Results.encoded (body ++ be16 (crc16 body) ++ tail)
      (body ++ be16 (crc16 body)).length).wf seg := by
  have hlen : (body ++ be16 (crc16 body)).length = body.length + 2 := by simp
  refine ⟨by omega, by omega, by simp, ?_⟩
  rw [List.take_left, crcResidueIsZero]

theorem tcEncode_wf {seg : Bool} {frame : Option TcFrame} {dst : Option Bytes} {lout : Bool}
    {d : Bytes} {n : Nat} (hframe : tcOperandTooLong frame = false)
    (h : tcEncode seg frame dst lout = .ok (d, n)) : (Results.encoded d n).wf seg := by
  rw [tcEncode_eq_encodeWith] at h
  obtain ⟨f, _, rfl, rfl, rfl⟩ := encodeWith_eq_ok h
  have hf := (tcOperandTooLong_some f).mp hframe
  have hle := tcSegPresent_le_one seg f.cc
  exact encoded_wf _ _ (by rw [tcEncodeBody_length]; omega) (by rw [tcEncodeBody_length]; omega)

theorem tmEncode_wf {seg : Bool} {frame : Option TmFrame} {dst : Option Bytes} {lout : Bool}
    {d : Bytes} {n : Nat} (hframe : tmOperandTooLong frame = false)
    (h : tmEncode frame dst lout = .ok (d, n)) : (Results.encoded d n).wf seg := by
  rw [tmEncode_eq_encodeWith] at h
  obtain ⟨f, _, rfl, rfl, rfl⟩ := encodeWith_eq_ok h
  have hf := (tmOperandTooLong_some f).mp hframe
  exact encoded_wf _ _ (by rw [tmEncodeBody_length]; omega) (by rw [tmEncodeBody_length]; omega)

/-- A command without a DST operand delivers the record of what it computed. -/
theorem State.conclude_delivered (s : State) (x : Except Failure Results) :
    (s.conclude x).delivered = recordOf x :: s.delivered := by
  rw [State.conclude_eq, State.deliver_delivered]

/-- Every command that answers a next state delivers a well-formed record. -/
theorem exec_delivers_wf {i : Instr} (h : exec i s = .next t) :
    ∃ r, t.delivered = r :: s.delivered ∧ r.wf s.segHdr := by
  cases i with
  | crc16 => obtain ⟨_, _, rfl⟩ := execCrc16_next h; exact ⟨_, rfl, trivial⟩
  | tcCreate =>
    obtain ⟨_, _, _, _, _, _, rfl⟩ := execTcCreate_next h
    exact ⟨_, s.conclude_delivered _,
      recordOf_map_wf fun _ hf => sendable_wf (sendable_of_tcCreate hf).1⟩
  | tcSetSeg =>
    obtain ⟨_, _, _, _, hseg, hframe, rfl⟩ := execTcSetSeg_next h
    exact ⟨_, s.conclude_delivered _, hseg ▸ recordOf_map_wf fun _ hf => tcSetSeg_wf hframe hf⟩
  | tcEncode =>
    obtain ⟨_, _, _, _, hframe, rfl⟩ := execTcEncode_next h
    exact concludeEncode_delivers_wf fun _ _ hd => tcEncode_wf hframe hd
  | tcDecode e =>
    obtain ⟨_, _, _, _, rfl⟩ := execTcDecode_next h
    exact ⟨_, s.conclude_delivered _, recordOf_map_wf fun _ hf => tcDecode_wf hf⟩
  | tmCreate =>
    obtain ⟨_, _, _, _, _, ⟨_, hf, rfl⟩ | ⟨_, _, rfl⟩⟩ := execTmCreate_next h
    · exact ⟨_, rfl, tmCreate_wf (seg := s.segHdr) hf⟩
    · exact ⟨_, rfl, trivial⟩
  | tmEncode =>
    obtain ⟨_, _, _, _, hframe, rfl⟩ := execTmEncode_next h
    exact concludeEncode_delivers_wf fun _ _ hd => tmEncode_wf hframe hd
  | tmDecode =>
    obtain ⟨_, _, _, rfl⟩ := execTmDecode_next h
    exact ⟨_, s.conclude_delivered _, recordOf_map_wf fun _ hf => tmDecode_wf hf⟩
  | cntRead => obtain ⟨_, rfl⟩ := execCntRead_next h; exact ⟨_, rfl, trivial⟩
  | cntWrite => obtain ⟨_, _, rfl⟩ := execCntWrite_next h; exact ⟨_, rfl, trivial⟩

/-- Settles O17: a step adds at most one record, which is well-formed for the build
(`exec_delivers_wf`), and the build stays. -/
theorem stepsKeepResultsWellFormed : Obligations.StepsKeepResultsWellFormed := by
  unfold Obligations.StepsKeepResultsWellFormed
  intro s t hs h
  obtain ⟨_, rfl⟩ | ⟨_, _, _, _, _, he⟩ := step_next h
  · exact hs
  · obtain ⟨r, hdelivered, hr⟩ := exec_delivers_wf he
    rw [State.Inv, step_keeps_segHdr h, hdelivered, List.forall_mem_cons]
    exact ⟨hr, hs⟩

/-! ### The reset state -/

@[simp] theorem State.reset_delivered : State.reset.delivered = [] := rfl

/-- Settles O18: no record is delivered at reset. -/
theorem resetResultsWellFormed : Obligations.ResetResultsWellFormed := by
  unfold Obligations.ResetResultsWellFormed State.Inv
  rw [State.reset_delivered]
  exact List.forall_mem_nil _

/-- Settles O9: the three fields of the reset state. -/
theorem resetHoldsNoCommandOrResult : Obligations.ResetHoldsNoCommandOrResult :=
  ⟨rfl, rfl, State.reset_delivered⟩

end Sys2Proof.Machine

/-! SUPPORT. Runs of several commands: their end (70_reset_and_hazards.md R208), what a command depends on
(20_memory.md R38), and the counts of two creations (44_counter.md R174). -/

namespace Sys2Proof.Machine

variable {s t : State}

/-! ### Runs -/

/-- Settles O19, by induction on the issued commands: each completes, and the build in which the rest
have a meaning stays. -/
theorem finiteRunsComplete : Obligations.FiniteRunsComplete := by
  unfold Obligations.FiniteRunsComplete
  intro s
  generalize hcs : s.pending = cs
  induction cs generalizing s with
  | nil => exact fun _ => ⟨s, [], rfl, hcs, rfl, rfl⟩
  | cons c cs ih =>
    intro hmeaning
    obtain ⟨hm, _⟩ | ⟨_, m, hm, hpending, r, hdelivered⟩ := step_refuses_or_completes hcs
    · exact absurd hm (hmeaning c List.mem_cons_self)
    · rw [hcs, List.tail_cons] at hpending
      obtain ⟨t, rs, hrun, ht, hlength, hrs⟩ := ih m hpending fun c' hc' => by
        rw [step_keeps_segHdr hm]
        exact hmeaning c' (List.mem_cons_of_mem c hc')
      refine ⟨t, rs ++ [r], (run_cons hm).trans hrun, ht, by simp [hlength], ?_⟩
      rw [hrs, hdelivered, List.append_assoc, List.singleton_append]

/-- A step with a command issued completes it. -/
theorem step_completesTo {c : Command} {rest : List Command} (h : s.pending = c :: rest)
    (ht : step s = .next t) : t.pending = rest ∧ ∃ r, t.delivered = r :: s.delivered := by
  obtain ⟨_, _, hr⟩ | ⟨_, t', ht', hpending, hdelivered⟩ := step_refuses_or_completes h
  · cases hr.symm.trans ht
  · cases ht'.symm.trans ht
    exact ⟨by rw [hpending, h, List.tail_cons], hdelivered⟩

/-- A run over issued commands delivers a record for each. -/
theorem run_delivers (cs : List Command) {rest : List Command} (h : s.pending = cs ++ rest)
    (ht : core.run cs.length s = .next t) :
    ∃ rs : List ResultRecord, rs.length = cs.length ∧ t.delivered = rs ++ s.delivered := by
  induction cs generalizing s with
  | nil =>
    cases ht
    exact ⟨[], rfl, rfl⟩
  | cons c cs ih =>
    obtain ⟨m, hm, hrun⟩ := run_next ht
    obtain ⟨hpending, r, hdelivered⟩ := step_completesTo h hm
    obtain ⟨rs, hlength, hrs⟩ := ih hpending hrun
    refine ⟨rs ++ [r], by simp [hlength], ?_⟩
    rw [hrs, hdelivered, List.append_assoc, List.singleton_append]

/-- A run that answers a next state is its first steps and then one more. -/
theorem run_succ_next {n : Nat} (h : core.run (n + 1) s = .next t) :
    ∃ m, core.run n s = .next m ∧ step m = .next t := by
  induction n generalizing s with
  | zero =>
    obtain ⟨m, hm, ht⟩ := run_next h
    cases ht
    exact ⟨s, rfl, hm⟩
  | succ n ih =>
    obtain ⟨m, hm, hrun⟩ := run_next h
    obtain ⟨m', hm', ht⟩ := ih hrun
    exact ⟨m', (run_cons hm).trans hm', ht⟩

/-- Settles O42: the second count is the first plus 1 and the counts taken between (`run_counts`),
which is another number modulo 256. -/
theorem noTwoCreatesShareACount : Obligations.NoTwoCreatesShareACount := by
  unfold Obligations.NoTwoCreatesShareACount
  intro s t c d mid rest hpending hc hd hmid hcount hrun
  obtain ⟨f, hf, hfirst⟩ := step_of_takesCount hpending hc
  obtain ⟨m, hm, hrun⟩ := run_next hrun
  cases hfirst.symm.trans hm
  obtain ⟨m', hmiddle, hlast⟩ := run_succ_next hrun
  obtain ⟨hpending', hctr⟩ := run_counts mid rfl hmid hmiddle
  obtain ⟨rs, hlength, hrs⟩ := run_delivers mid rfl hmiddle
  obtain ⟨g, hg, hstep⟩ := step_of_takesCount hpending' hd
  cases hstep.symm.trans hlast
  refine ⟨f, g, rs, congrArg _ hrs, hlength, fun heq => ?_⟩
  have hcounts := congrArg BitVec.toNat heq
  rw [hg, hf, hctr] at hcounts
  simp only [BitVec.toNat_add, BitVec.toNat_ofNat] at hcounts
  omega

/-! ### What a command depends on -/

/-- Two failures with a DST' of the same length, or without one, are read alike. -/
theorem readable_failure_congr {why : Failure} {d d' : Option Bytes}
    (h : d.map List.length = d'.map List.length) :
    (ResultRecord.failure why d).readable = (ResultRecord.failure why d').readable := by
  have hzeros (x : Option Bytes) : x.map (fun b => List.replicate b.length 0#8) =
      (x.map List.length).map fun n => List.replicate n 0#8 := by
    rw [Option.map_map]
    rfl
  rw [ResultRecord.readable, ResultRecord.readable, hzeros, hzeros, h]

/-- Two blocks that complete an encode command alike deliver records that are read alike. -/
theorem concludeEncode_readable (s u : State) (dst : Option Bytes)
    (x : Except Failure (Bytes × Nat)) :
    ∃ r q : ResultRecord, (s.concludeEncode dst x).delivered = r :: s.delivered ∧
      (u.concludeEncode dst x).delivered = q :: u.delivered ∧ q.readable = r.readable := by
  cases x with
  | ok a => exact ⟨_, _, rfl, rfl, rfl⟩
  | error why =>
    obtain ⟨d, hd, hlength⟩ := s.concludeEncode_error why dst
    obtain ⟨d', hd', hlength'⟩ := u.concludeEncode_error why dst
    exact ⟨_, _, hd, hd', readable_failure_congr (hlength'.trans hlength.symm)⟩

/-- `u` after a command did what `s` did after it: it delivered a record that is read alike, and from
the same counter it reached the same counter. -/
def AnsweredAlike (s s' u u' : State) : Prop :=
  (∃ r q : ResultRecord, s'.delivered = r :: s.delivered ∧ u'.delivered = q :: u.delivered ∧
    q.readable = r.readable) ∧
  (u.ctr = s.ctr → u'.ctr = s'.ctr)

theorem answeredAlike_conclude (s u : State) (x : Except Failure Results) :
    AnsweredAlike s (s.conclude x) u (u.conclude x) := by
  refine ⟨⟨_, _, s.conclude_delivered x, u.conclude_delivered x, rfl⟩, fun hctr => ?_⟩
  rw [State.conclude_ctr, State.conclude_ctr, hctr]

theorem answeredAlike_concludeEncode (s u : State) (dst : Option Bytes)
    (x : Except Failure (Bytes × Nat)) :
    AnsweredAlike s (s.concludeEncode dst x) u (u.concludeEncode dst x) := by
  refine ⟨concludeEncode_readable s u dst x, fun hctr => ?_⟩
  rw [State.concludeEncode_ctr, State.concludeEncode_ctr, hctr]

/-- A command that answers a next state does alike in a block of the same build with the same operand
record, and, if the command reads CTR, with the same counter. -/
theorem exec_answersAlike {i : Instr} {s s' u : State} (hops : u.operands = s.operands)
    (hseg : u.segHdr = s.segHdr) (hctr : i = .tmCreate ∨ i = .cntRead → u.ctr = s.ctr)
    (h : exec i s = .next s') : ∃ u', exec i u = .next u' ∧ AnsweredAlike s s' u u' := by
  cases i with
  | crc16 =>
    obtain ⟨_, ho, rfl⟩ := execCrc16_next h
    exact ⟨_, execCrc16_of_operands (hops.trans ho), answeredAlike_conclude s u (.ok _)⟩
  | tcCreate =>
    obtain ⟨_, _, _, _, _, ho, rfl⟩ := execTcCreate_next h
    exact ⟨_, execTcCreate_of_operands (hops.trans ho), hseg ▸ answeredAlike_conclude s u _⟩
  | tcSetSeg =>
    obtain ⟨_, _, _, ho, hs, hframe, rfl⟩ := execTcSetSeg_next h
    exact ⟨_, execTcSetSeg_of_operands (hops.trans ho) (hseg.trans hs) hframe,
      answeredAlike_conclude s u _⟩
  | tcEncode =>
    obtain ⟨_, _, _, ho, hframe, rfl⟩ := execTcEncode_next h
    exact ⟨_, execTcEncode_of_operands (hops.trans ho) hframe,
      hseg ▸ answeredAlike_concludeEncode s u _ _⟩
  | tcDecode e =>
    obtain ⟨_, _, ho, he, rfl⟩ := execTcDecode_next h
    exact ⟨_, execTcDecode_of_operands (hops.trans ho) (fun h' => hseg.trans (he h')),
      hseg ▸ answeredAlike_conclude s u _⟩
  | tmCreate =>
    have hsame := hctr (.inl rfl)
    obtain ⟨_, _, _, _, ho, ⟨f, hf, rfl⟩ | ⟨why, hwhy, rfl⟩⟩ := execTmCreate_next h
    · obtain ⟨rest, hu⟩ := issued_of_operands (hops.trans ho)
      exact ⟨_, exec_tmCreate_of_ok hu (hsame ▸ hf), ⟨_, _, rfl, rfl, rfl⟩,
        fun _ => congrArg (· + 1#8) hsame⟩
    · obtain ⟨rest, hu⟩ := issued_of_operands (hops.trans ho)
      exact ⟨_, exec_tmCreate_of_error hu (hsame ▸ hwhy), ⟨_, _, rfl, rfl, rfl⟩, fun _ => hsame⟩
  | tmEncode =>
    obtain ⟨_, _, _, ho, hframe, rfl⟩ := execTmEncode_next h
    exact ⟨_, execTmEncode_of_operands (hops.trans ho) hframe,
      answeredAlike_concludeEncode s u _ _⟩
  | tmDecode =>
    obtain ⟨_, _, ho, rfl⟩ := execTmDecode_next h
    exact ⟨_, execTmDecode_of_operands (hops.trans ho), answeredAlike_conclude s u _⟩
  | cntRead =>
    obtain ⟨ho, rfl⟩ := execCntRead_next h
    exact ⟨_, execCntRead_of_operands (hops.trans ho),
      hctr (.inr rfl) ▸ answeredAlike_conclude s u (.ok _)⟩
  | cntWrite =>
    obtain ⟨_, ho, rfl⟩ := execCntWrite_next h
    exact ⟨_, execCntWrite_of_operands (hops.trans ho), ⟨_, _, rfl, rfl, rfl⟩, fun _ => rfl⟩

/-- A command that does not touch CTR decodes to none of the three that do (10_state.md R12). -/
theorem ne_of_not_touchesCtr {c : Command} {i : Instr} (h : c.touchesCtr = false)
    (hd : decode c.word = .ok i) : i ≠ .tmCreate ∧ i ≠ .cntRead ∧ i ≠ .cntWrite := by
  obtain ⟨_, hopc, _⟩ := decode_ok hd
  rw [Command.touchesCtr, hopc] at h
  refine ⟨?_, ?_, ?_⟩ <;> rintro rfl <;> simp [Instr.opc] at h

/-- Two blocks of the same build with the same first command, and, if it touches CTR, with the same
counter, answer it alike. -/
theorem step_answersAlike {s s' u : State} {c : Command} {rest rest' : List Command}
    (hs : s.pending = c :: rest) (hu : u.pending = c :: rest') (hseg : u.segHdr = s.segHdr)
    (hctr : c.touchesCtr = true → u.ctr = s.ctr) (h : step s = .next s') :
    ∃ u', step u = .next u' ∧ AnsweredAlike s s' u u' := by
  obtain ⟨hnil, _⟩ | ⟨c', rest'', i, hp, hd, he⟩ := step_next h
  · cases hs.symm.trans hnil
  cases hs.symm.trans hp
  rw [step_of_decode hu hd]
  refine exec_answersAlike ?_ hseg (fun hi => hctr ?_) he
  · rw [u.operands_of_pending hu, s.operands_of_pending hs]
  · by_contra hno
    obtain ⟨hcreate, hread, _⟩ := ne_of_not_touchesCtr (eq_false_of_ne_true hno) hd
    exact hi.elim hcreate hread

/-- Settles O20: with the same counter the two blocks answer alike. -/
theorem resultDependsOnlyOnCommandAndCtr : Obligations.ResultDependsOnlyOnCommandAndCtr := by
  unfold Obligations.ResultDependsOnlyOnCommandAndCtr
  intro s u s' c rest rest' hs hu hctr hseg h
  obtain ⟨u', hstep, ⟨r, q, hr, hq, hread⟩, hctr'⟩ :=
    step_answersAlike hs hu hseg (fun _ => hctr) h
  exact ⟨u', r, q, hstep, hctr' hctr, hr, hq, hread⟩

/-- A step over a command that does not touch CTR leaves it. -/
theorem step_keeps_ctr {c : Command} {rest : List Command} (h : s.pending = c :: rest)
    (hc : c.touchesCtr = false) (ht : step s = .next t) : t.ctr = s.ctr := by
  obtain ⟨hnil, _⟩ | ⟨c', rest', i, hp, hd, he⟩ := step_next ht
  · cases h.symm.trans hnil
  · cases h.symm.trans hp
    obtain ⟨hcreate, _, hwrite⟩ := ne_of_not_touchesCtr hc hd
    exact exec_keeps_ctr hcreate hwrite he

/-- Two steps that answer are a run of two. -/
theorem run_two {m : State} (hm : step s = .next m) (ht : step m = .next t) :
    core.run 2 s = .next t :=
  (run_cons hm).trans (run_cons ht)

/-- Settles O21: `d` finds the same counter before `c` as after it, and `c` does not read the
counter, so each answers alike in both orders. -/
theorem ctrFreeCommandsCommute : Obligations.CtrFreeCommandsCommute := by
  unfold Obligations.CtrFreeCommandsCommute
  intro s t c d rest hc hpending hrun
  obtain ⟨m, hcm, hrun⟩ := run_next hrun
  obtain ⟨t', hdt, ht⟩ := run_next hrun
  cases ht
  have hm := (step_completesTo hpending hcm).1
  have hmctr := step_keeps_ctr hpending hc hcm
  obtain ⟨m', hdm', ⟨rd, qd, hrd, hqd, hdread⟩, hdctr⟩ :=
    step_answersAlike (u := { s with pending := d :: c :: rest }) hm rfl
      (step_keeps_segHdr hcm).symm (fun _ => hmctr.symm) hdt
  have hm' : m'.pending = c :: rest := (step_completesTo rfl hdm').1
  obtain ⟨u, hcu, ⟨rc, qc, hrc, hqc, hcread⟩, _⟩ :=
    step_answersAlike hpending hm' ((step_keeps_segHdr hdm').trans rfl) (by simp [hc]) hcm
  refine ⟨u, rc, rd, qc, qd, run_two hdm' hcu, ?_, ?_, ?_, ?_, hcread, hdread⟩
  · rw [step_keeps_ctr hm' hc hcu, hdctr hmctr.symm]
  · rw [(step_completesTo hm' hcu).1, (step_completesTo hm hdt).1]
  · rw [hrd, hrc]
  · rw [hqc, hqd]

end Sys2Proof.Machine

/-! SUPPORT. The table of statuses (60_exceptions.md R185): no command returns another status, and every
status of the table is returned in some state. -/

namespace Sys2Proof.Machine

variable {s t : State} {i : Instr}

/-! ### No other status -/

@[simp] theorem mayReturn_success (i : Instr) : mayReturn i .success = true := by
  cases i <;> rfl

/-- A command without a DST operand returns Success or a status that its computation fails with. -/
theorem mayReturn_recordOf {α : Type} {x : Except Failure α} {g : α → Results}
    (h : ∀ why, x = .error why → mayReturn i (.failed why) = true) :
    mayReturn i (recordOf (x.map g)).status = true := by
  cases x with
  | ok a => exact mayReturn_success i
  | error why => exact h why rfl

/-- An encode command returns Success or a status that its computation fails with. -/
theorem mayReturn_concludeEncode {dst : Option Bytes} {x : Except Failure (Bytes × Nat)}
    (h : ∀ why, x = .error why → mayReturn i (.failed why) = true) :
    ∃ r, (s.concludeEncode dst x).delivered = r :: s.delivered ∧
      mayReturn i r.status = true := by
  cases x with
  | ok a => exact ⟨_, rfl, mayReturn_success i⟩
  | error why =>
    obtain ⟨_, hdelivered, _⟩ := s.concludeEncode_error why dst
    exact ⟨_, hdelivered, h why rfl⟩

theorem tcCreate_error {seg : Bool} {scid : BitVec 16} {vcid seq : BitVec 8}
    {payload : Option Bytes} {fout : Bool} {why : Failure}
    (h : tcCreate seg scid vcid seq payload fout = .error why) : why = .invalidParameter := by
  obtain herror | ⟨f, hf, _⟩ := tcCreate_cases seg scid vcid seq payload fout
  · cases herror.symm.trans h
    rfl
  · cases hf.symm.trans h

theorem tmCreate_error {ctr : Count} {scid : BitVec 16} {vcid : BitVec 8} {payload : Option Bytes}
    {fout : Bool} {why : Failure} (h : tmCreate ctr scid vcid payload fout = .error why) :
    why = .invalidParameter := by
  obtain hfail | ⟨p, rfl, rfl, hp⟩ := createFails_or_not payload fout
  · cases (tmCreate_error_iff.mpr hfail).symm.trans h
    rfl
  · cases (tmCreate_eq_ok_iff.mpr ⟨rfl, p, rfl, hp, rfl⟩).symm.trans h

theorem tcSetSeg_error {frame : Option TcFrame} {flags : BitVec 2} {map : BitVec 8} {why : Failure}
    (h : tcSetSeg frame flags map = .error why) : why = .invalidParameter := by
  cases frame <;> cases h
  rfl

theorem tcDecode_error {seg e : Bool} {src : Option Bytes} {fout : Bool} {why : Failure}
    (h : tcDecode seg e src fout = .error why) : why ≠ .bufferTooSmall := by
  obtain habsent | ⟨b, rfl, rfl⟩ := absent_or_present src fout
  · rw [tcDecode_of_absent seg habsent] at h
    cases h
    exact nofun
  · rw [tcDecode_some seg e b _ rfl] at h
    split_ifs at h <;> cases h <;> exact nofun

theorem tmDecode_error {src : Option Bytes} {fout : Bool} {why : Failure}
    (h : tmDecode src fout = .error why) : why ≠ .bufferTooSmall := by
  obtain habsent | ⟨b, rfl, rfl⟩ := absent_or_present src fout
  · rw [tmDecode_of_absent habsent] at h
    cases h
    exact nofun
  · rw [tmDecode_some] at h
    split_ifs at h <;> cases h <;> exact nofun

/-- The status of the record that a command delivers stands in the command's row of the table. -/
theorem exec_delivers_mayReturn (h : exec i s = .next t) :
    ∃ r, t.delivered = r :: s.delivered ∧ mayReturn i r.status = true := by
  cases i with
  | crc16 => obtain ⟨_, _, rfl⟩ := execCrc16_next h; exact ⟨_, rfl, rfl⟩
  | tcCreate =>
    obtain ⟨_, _, _, _, _, _, rfl⟩ := execTcCreate_next h
    exact ⟨_, s.conclude_delivered _, mayReturn_recordOf fun _ hw => tcCreate_error hw ▸ rfl⟩
  | tcSetSeg =>
    obtain ⟨_, _, _, _, _, _, rfl⟩ := execTcSetSeg_next h
    exact ⟨_, s.conclude_delivered _, mayReturn_recordOf fun _ hw => tcSetSeg_error hw ▸ rfl⟩
  | tcEncode =>
    obtain ⟨_, _, _, _, _, rfl⟩ := execTcEncode_next h
    refine mayReturn_concludeEncode fun _ hw => ?_
    rw [tcEncode_eq_encodeWith] at hw
    obtain rfl | rfl := encodeWith_error hw <;> rfl
  | tcDecode e =>
    obtain ⟨_, _, _, _, rfl⟩ := execTcDecode_next h
    refine ⟨_, s.conclude_delivered _, mayReturn_recordOf fun why hw => ?_⟩
    have hne := tcDecode_error hw
    cases why with
    | bufferTooSmall => exact absurd rfl hne
    | _ => rfl
  | tmCreate =>
    obtain ⟨_, _, _, _, _, ⟨_, _, rfl⟩ | ⟨_, hw, rfl⟩⟩ := execTmCreate_next h
    · exact ⟨_, rfl, rfl⟩
    · exact ⟨_, rfl, tmCreate_error hw ▸ rfl⟩
  | tmEncode =>
    obtain ⟨_, _, _, _, _, rfl⟩ := execTmEncode_next h
    refine mayReturn_concludeEncode fun _ hw => ?_
    rw [tmEncode_eq_encodeWith] at hw
    obtain rfl | rfl := encodeWith_error hw <;> rfl
  | tmDecode =>
    obtain ⟨_, _, _, rfl⟩ := execTmDecode_next h
    refine ⟨_, s.conclude_delivered _, mayReturn_recordOf fun why hw => ?_⟩
    have hne := tmDecode_error hw
    cases why with
    | bufferTooSmall => exact absurd rfl hne
    | _ => rfl
  | cntRead => obtain ⟨_, rfl⟩ := execCntRead_next h; exact ⟨_, rfl, rfl⟩
  | cntWrite => obtain ⟨_, _, rfl⟩ := execCntWrite_next h; exact ⟨_, rfl, rfl⟩

/-! ### Every status of the table -/

/-- There is a state in which the command returns the status. -/
def CanReturn (i : Instr) (st : Status) : Prop :=
  ∃ (s t : State) (r : ResultRecord), exec i s = .next t ∧ t.delivered = r :: s.delivered ∧
    r.status = st

/-- A block with segment headers to which the command with this operand record is issued. -/
def blockIssuing (i : Instr) (ops : Operands) : State :=
  { ctr := 0#8, segHdr := true, pending := [⟨i.encode, ops⟩], delivered := [], draws := 0 }

theorem issued_blockIssuing (i : Instr) (ops : Operands) :
    Claims.issued (blockIssuing i ops) ops [] := ⟨_, rfl⟩

theorem canReturn_tcDecode {e : Bool} {src : Option Bytes} {fout : Bool} {x : Except Failure TcFrame}
    (h : tcDecode true e src fout = x) :
    CanReturn (.tcDecode e) (recordOf (x.map .tcFrame)).status :=
  ⟨_, _, _, exec_tcDecode_of_issued (issued_blockIssuing (.tcDecode e) (.decode src fout))
    (fun _ => rfl), rfl, h ▸ rfl⟩

theorem canReturn_tmDecode {src : Option Bytes} {fout : Bool} {x : Except Failure TmFrame}
    (h : tmDecode src fout = x) : CanReturn .tmDecode (recordOf (x.map .tmFrame)).status :=
  ⟨_, _, _, exec_tmDecode_of_issued (issued_blockIssuing .tmDecode (.decode src fout)), rfl,
    h ▸ rfl⟩

/-- A decoder that expects segment headers as the sender sends them accepts the sender's frame. -/
theorem tcDecode_zeroTcFrame (e : Bool) :
    ∃ f, tcDecode true e (some (tcEncodeFrame e zeroTcFrame)) true = .ok f := by
  have hn : tcSegPresent e zeroTcFrame.cc = tcSegParsed true e zeroTcFrame.cc := by
    cases e <;> rfl
  have hlen : (tcEncodeFrame e zeroTcFrame).length ≤ 1031 + tcSegPresent e zeroTcFrame.cc := by
    rw [tcEncodeFrame_length, tcTotalLen_eq]
    show 5 + tcSegPresent e zeroTcFrame.cc + 0 + 2 ≤ _
    omega
  exact ⟨_, tcDecode_tcEncodeFrame hn le_rfl hlen⟩

theorem canReturn_success (i : Instr) : CanReturn i .success := by
  cases i with
  | crc16 => exact ⟨blockIssuing .crc16 (.crc16 []), _, _, rfl, rfl, rfl⟩
  | tcCreate =>
    exact ⟨blockIssuing .tcCreate (.tcCreate 0#16 0#8 0#8 (some []) true), _, _, rfl, rfl, rfl⟩
  | tcSetSeg =>
    exact ⟨blockIssuing .tcSetSeg (.tcSetSeg (some zeroTcFrame) 0#2 0#8), _, _, rfl, rfl, rfl⟩
  | tcEncode =>
    exact ⟨blockIssuing .tcEncode (.tcEncode (some zeroTcFrame) (some (List.replicate 8 0#8)) true),
      _, _, rfl, rfl, rfl⟩
  | tcDecode e =>
    obtain ⟨_, hf⟩ := tcDecode_zeroTcFrame e
    exact canReturn_tcDecode hf
  | tmCreate =>
    exact ⟨blockIssuing .tmCreate (.tmCreate 0#16 0#8 (some []) true), _, _, rfl, rfl, rfl⟩
  | tmEncode =>
    exact ⟨blockIssuing .tmEncode (.tmEncode (some zeroTmFrame) (some (List.replicate 8 0#8)) true),
      _, _, rfl, rfl, rfl⟩
  | tmDecode => exact canReturn_tmDecode (tmDecode_tmEncodeFrame (f := zeroTmFrame) (Nat.zero_le _))
  | cntRead => exact ⟨blockIssuing .cntRead .cntRead, _, _, rfl, rfl, rfl⟩
  | cntWrite => exact ⟨blockIssuing .cntWrite (.cntWrite 0#8), _, _, rfl, rfl, rfl⟩

/-- A command with a reference operand fails when it is absent. -/
theorem canReturn_invalidParameter (h : mayReturn i (.failed .invalidParameter) = true) :
    CanReturn i (.failed .invalidParameter) := by
  cases i with
  | tcCreate =>
    exact ⟨blockIssuing .tcCreate (.tcCreate 0#16 0#8 0#8 none true), _, _, rfl, rfl, rfl⟩
  | tcSetSeg => exact ⟨blockIssuing .tcSetSeg (.tcSetSeg none 0#2 0#8), _, _, rfl, rfl, rfl⟩
  | tcEncode => exact ⟨blockIssuing .tcEncode (.tcEncode none none true), _, _, rfl, rfl, rfl⟩
  | tcDecode e => exact canReturn_tcDecode (tcDecode_of_absent (fout := true) true (.inl rfl))
  | tmCreate => exact ⟨blockIssuing .tmCreate (.tmCreate 0#16 0#8 none true), _, _, rfl, rfl, rfl⟩
  | tmEncode => exact ⟨blockIssuing .tmEncode (.tmEncode none none true), _, _, rfl, rfl, rfl⟩
  | tmDecode => exact canReturn_tmDecode (tmDecode_of_absent (fout := true) (.inl rfl))
  | crc16 | cntRead | cntWrite => exact absurd h Bool.false_ne_true

/-- An encode command fails when its buffer is empty. -/
theorem canReturn_bufferTooSmall (h : mayReturn i (.failed .bufferTooSmall) = true) :
    CanReturn i (.failed .bufferTooSmall) := by
  cases i with
  | tcEncode =>
    exact ⟨blockIssuing .tcEncode (.tcEncode (some zeroTcFrame) (some []) true), _, _, rfl, rfl, rfl⟩
  | tmEncode =>
    exact ⟨blockIssuing .tmEncode (.tmEncode (some zeroTmFrame) (some []) true), _, _, rfl, rfl, rfl⟩
  | _ => exact absurd h Bool.false_ne_true

/-- A decode command fails on a sequence longer than every frame. -/
theorem canReturn_invalidFrame (h : mayReturn i (.failed .invalidFrame) = true) :
    CanReturn i (.failed .invalidFrame) := by
  have hlen : (List.replicate 1033 0#8).length = 1033 := List.length_replicate
  cases i with
  | tcDecode e =>
    refine canReturn_tcDecode (e := e) (src := some (List.replicate 1033 0#8)) (fout := true)
      (x := .error .invalidFrame) ?_
    have hle := tcSegParsed_le_one true e ((byteAt (List.replicate 1033 0#8) 0).extractLsb' 4 1)
    rw [tcDecode_some _ _ _ _ rfl, hlen, if_neg (by omega), if_neg (by omega), if_pos (by omega)]
  | tmDecode =>
    refine canReturn_tmDecode (src := some (List.replicate 1033 0#8)) (fout := true)
      (x := .error .invalidFrame) ?_
    rw [tmDecode_some, hlen, if_neg (by omega), if_pos (by omega)]
  | _ => exact absurd h Bool.false_ne_true

/-- Eight zero bytes do not end in their CRC. -/
theorem crc16_eight_zeros_ne : crc16 (List.replicate 8 0#8) ≠ 0#16 := by
  simp [crc16_eq_foldl, crcByte_eq, crcShifts, crcShift, Config.crcPoly]

/-- A decode command fails on eight zero bytes. -/
theorem canReturn_crcMismatch (h : mayReturn i (.failed .crcMismatch) = true) :
    CanReturn i (.failed .crcMismatch) := by
  have hlen : (List.replicate 8 0#8).length = 8 := List.length_replicate
  cases i with
  | tcDecode e =>
    have hle := tcSegParsed_le_one true e ((byteAt (List.replicate 8 0#8) 0).extractLsb' 4 1)
    have hdecode := tcDecode_of_crc_ne (seg := true) (e := e) rfl (by rw [hlen]; omega)
      crc16_eight_zeros_ne
    rw [hlen, if_neg (by omega)] at hdecode
    exact canReturn_tcDecode hdecode
  | tmDecode =>
    exact canReturn_tmDecode
      (tmDecode_of_crc_ne (by rw [hlen]) (by rw [hlen]; omega) crc16_eight_zeros_ne)
  | _ => exact absurd h Bool.false_ne_true

/-- Settles O16: a delivered record's status stands in the table (`exec_delivers_mayReturn`), and for
each status of the table there is a state that returns it, by the status. -/
theorem statusTableIsExact : Obligations.StatusTableIsExact := by
  unfold Obligations.StatusTableIsExact
  intro i st
  constructor
  · intro h
    cases st with
    | success => exact canReturn_success i
    | failed why =>
      cases why with
      | invalidParameter => exact canReturn_invalidParameter h
      | bufferTooSmall => exact canReturn_bufferTooSmall h
      | invalidFrame => exact canReturn_invalidFrame h
      | crcMismatch => exact canReturn_crcMismatch h
  · rintro ⟨s, t, r, h, hdelivered, rfl⟩
    obtain ⟨r', hdelivered', hmay⟩ := exec_delivers_mayReturn h
    obtain rfl : r' = r := List.head_eq_of_cons_eq (hdelivered'.symm.trans hdelivered)
    exact hmay

end Sys2Proof.Machine
